-- ==== Sys2Proof/Word.lean ====
section
/-! DEFINITION. The two word types of the block: the 32-bit host word and the 8-bit byte (00_scope.md R6, R7). -/

namespace Sys2Proof

/-- A host-visible register, a command word or a host offset: 32 bits (R6, decisions D14, D23). -/
abbrev Word := BitVec 32

/-- A byte of BUF or an entry of PIX: 8 bits (R28, R29). -/
abbrev Byte := BitVec 8

end Sys2Proof
end

