-- ==== Sys2Proof/Config.lean ====
section
/-! DEFINITION. What an implementation fixes (BUF_SIZE) and the free values the spec leaves open
(PIX and BUF after reset: 93_implementation_defined.md U1, U2). -/

namespace Sys2Proof

/-- The implementation's parameters (00_scope.md R6). A state carries them unchanged, so that a claim
about every state is a claim about every BUF_SIZE (D9). DESIGN CHOICE, log 1. -/
structure Config where
  /-- BUF_SIZE: the size of BUF in bytes, the spec's one open parameter (R6, R27, U3). -/
  bufSize : Nat
  deriving DecidableEq, Repr

/-- The bounds R6 and D9 put on BUF_SIZE: 64 <= BUF_SIZE <= 2^31. -/
abbrev Config.wf (c : Config) : Prop := 64 ≤ c.bufSize ∧ c.bufSize ≤ 2 ^ 31

/-- FREE VALUE: what entry `j` of PIX holds after the reset number `draw` until it is written
("each entry is an arbitrary 8-bit value, fixed at reset", U1). Log 2. -/
opaque Config.pixAtReset (draw j : Nat) : Byte

/-- FREE VALUE: what byte `a` of BUF holds after the reset number `draw` until it is written
("each byte arbitrary, fixed at reset, stable until written", U2). Log 3. -/
opaque Config.bufAtReset (draw a : Nat) : Byte

end Sys2Proof
end

