-- ==== Sys2Proof/Syntax.lean ====
section
/-! DEFINITION. The commands of the block, one constructor per row of spec/opcode_table.json
(30_encoding.md R60 to R65). -/

namespace Sys2Proof

/-- pixelOrdering (00_scope.md R6, R11; D13). -/
inductive PixelOrdering where
  /-- The highest bit group of a byte is the first pixel; encoded 0. -/
  | inOrder
  /-- The lowest bit group of a byte is the first pixel; encoded 1. -/
  | reverseOrder
  deriving DecidableEq, Repr

/-- A command with its operands assembled as integers (R64). The registers a command also reads
(OFFSET, BUF_LEN, PIX_LEN, FMT) are state, not operands. -/
inductive Instr where
  /-- CONFIG: construct and latch a tile format (R60, R73); `bpp` = nb, `ord` = no, `stride` = ns. -/
  | config (bpp : Nat) (ord : PixelOrdering) (stride : Int)
  /-- DECODE: unpack `rows` rows of a tile from BUF into PIX (R61, R94). -/
  | decode (rows : Nat)
  /-- ENCODE: pack PIX into the caller's buffer at OFFSET (R62, R105). -/
  | encode
  /-- ENCZ: pack PIX into a freshly zeroed buffer at offset 0 (R63, R108). -/
  | encz
  deriving DecidableEq, Repr

end Sys2Proof
end

