-- ==== Sys2Proof/WellFormed.lean ====
section
/-! DEFINITION. Which commands have an encoding: every operand fits its field (30_encoding.md R64, R70). -/

namespace Sys2Proof

/-- The operands fit their fields: "The assembler refuses a field value that does not fit its field:
bpp or rows outside 0 to 15, stride outside -32768 to 32767. It does not refuse an encodable but illegal
value" (R70). Legality of the values is the commands' own check (R74, R93), not this one. -/
def Instr.wellFormed : Instr → Bool
  | .config bpp _ stride => decide (bpp ≤ 15) && decide (-32768 ≤ stride) && decide (stride ≤ 32767)
  | .decode rows => decide (rows ≤ 15)
  | .encode => true
  | .encz => true

/-- The check as a proposition. -/
abbrev Instr.WellFormed (i : Instr) : Prop := i.wellFormed = true

end Sys2Proof
end

