-- ==== Sys2Proof/Decode.lean ====
section
/-! DEFINITION. The total command decoder (30_encoding.md R69), the encoder written from the field
tables (R60 to R63, R70), and the host's view of the decoder. -/

namespace Sys2Proof

/-- Why a word is illegal (R66). -/
inductive Illegal where
  /-- OPC is 0x0 or 0x5 to 0xF. -/
  | reservedOpcode
  /-- OPC is 0x1 to 0x4 and a reserved bit of its format is 1. -/
  | reservedBits
  deriving DecidableEq, Repr

/-- The field of `n` bits whose lowest bit is bit `lo` of `w` (R7). -/
def field (w : Word) (lo n : Nat) : BitVec n := w.extractLsb' lo n

/-- pixelOrdering from its bit: 0 = InOrder, 1 = ReverseOrder (R60, D13). -/
def PixelOrdering.ofBit (b : BitVec 1) : PixelOrdering :=
  if b = 0#1 then .inOrder else .reverseOrder

/-- The bit of a pixelOrdering (R60, D13). -/
def PixelOrdering.bit : PixelOrdering → BitVec 1
  | .inOrder => 0#1
  | .reverseOrder => 1#1

/-- The decoding procedure `execute(w)` of R69, up to the choice of the command: every word is one
command or illegal. Operands are assembled as R64 says. -/
def decode (w : Word) : Except Illegal Instr :=
  match (field w 0 4).toNat with
  | 1 =>
    if field w 9 7 ≠ 0#7 then .error .reservedBits
    else .ok (.config (field w 4 4).toNat (.ofBit (field w 8 1)) (field w 16 16).toInt)
  | 2 =>
    if field w 8 24 ≠ 0#24 then .error .reservedBits
    else .ok (.decode (field w 4 4).toNat)
  | 3 => if field w 4 28 ≠ 0#28 then .error .reservedBits else .ok .encode
  | 4 => if field w 4 28 ≠ 0#28 then .error .reservedBits else .ok .encz
  | _ => .error .reservedOpcode

/-- The command word of a command (field tables of R60 to R63; the assembler's words of R70).
Fields from the most significant down. -/
def encode : Instr → Word
  | .config bpp ord stride =>
    BitVec.ofInt 16 stride ++ 0#7 ++ ord.bit ++ BitVec.ofNat 4 bpp ++ 1#4
  | .decode rows => 0#24 ++ BitVec.ofNat 4 rows ++ 2#4
  | .encode => 3#32
  | .encz => 4#32

/-- The command the decoder reads from an opcode-table word of `nbits` bits (log 10): a command is
exactly one 32-bit word (R68), delivered whole (R59). -/
def decodeTableWord (nbits w : Nat) : Option Instr :=
  if nbits ≤ 32 ∧ w < 2 ^ nbits then (decode (BitVec.ofNat 32 w)).toOption else none

end Sys2Proof
end

