-- ==== Sys2Proof/Machine/State.lean ====
section
/-! DEFINITION. The state of the block and of the host that drives it, the reasons a step could stop,
and the state after reset (10_state.md R15 to R32, 70_reset_and_hazards.md R135, R136). -/

namespace Sys2Proof.Machine

open Sys2Proof

/-- A byte memory: the bytes written since reset, as (address, byte) pairs with strictly rising
addresses. An unlisted address has not been written since reset; what it reads as is
`State.bufUnwritten` and `State.pixUnwritten` (Machine/Ops.lean). Logs 2 and 3. -/
abbrev Memory := List Host.Cell

/-- FMT, the latched tile format (R20). -/
structure Fmt where
  /-- VALID: 1 once a CONFIG has completed since reset. -/
  valid : Bool
  /-- BPP: bitsPerPixel. -/
  bpp : BitVec 4
  /-- ORD: pixelOrdering. -/
  ord : PixelOrdering
  /-- STRIDE: strideTiles, 16-bit two's complement. -/
  stride : BitVec 16
  deriving DecidableEq, Repr

/-- The host-visible registers (20_memory.md R39). -/
inductive Reg where
  | cmd | status | fmt | geom | offset | bufLen | pixLen | errReq | errAvail | bufsz
  deriving DecidableEq, Repr

/-- What an admitted host transaction reaches (R39, R40, R44, R45). -/
inductive Target where
  /-- A register, 4 bytes. -/
  | reg (r : Reg)
  /-- One entry of PIX. -/
  | pixByte (j : Nat)
  /-- Four entries of PIX, PIX[j] to PIX[j+3]. -/
  | pixWord (j : Nat)
  /-- One byte of BUF. -/
  | bufByte (a : Nat)
  /-- Four bytes of BUF, BUF[a] to BUF[a+3]. -/
  | bufWord (a : Nat)
  deriving DecidableEq, Repr

/-- An event of the one total order of R51: a host transaction (R40) or reset (R135). -/
inductive HostEvent where
  /-- A read of `size` bytes at a host offset. -/
  | read (addr : Word) (size : Nat)
  /-- A write of `size` bytes at a host offset; a 1-byte write uses `data[7:0]` (R44). -/
  | write (addr : Word) (size : Nat) (data : Word)
  /-- Reset is asserted between transactions. -/
  | reset
  /-- Reset is asserted while the CMD write of `word` is in progress: no response, no architected
  effect (R135, U11; log 8). -/
  | resetDuringCmd (word : Word)
  deriving DecidableEq, Repr

/-- The two bus outcomes (R40, G2): accepted, and refused with no effect. -/
inductive BusResponse where
  | okay
  | slverr
  deriving DecidableEq, Repr

/-- What the block gives back for one transaction (R40, R41, R145). A read's data is a word; a 1-byte
read gives its byte zero-extended (log 6). -/
inductive Response where
  | read (resp : BusResponse) (data : Word)
  | write (resp : BusResponse)
  deriving DecidableEq, Repr

/-- The faults a command can end with (60_exceptions.md R118), with the lengths the two length faults
record. They are reported in STATUS and the machine goes on (R117, R121): none of them stops a step. -/
inductive CmdFault where
  /-- CONFIG: the candidate format is not legal (R74). -/
  | invalidFormat
  /-- DECODE, ENCODE, ENCZ: required(base, rows) > avail (R92). -/
  | bufferTooShort (required avail : Nat)
  /-- ENCODE, ENCZ: PIX_LEN < 64 (R104). -/
  | invalidInput (required avail : Nat)
  /-- DECODE, ENCODE, ENCZ: FMT.VALID = 0. -/
  | noFormat
  /-- DECODE, ENCODE: OFFSET[2:0] != 0 (R87). -/
  | unalignedOffset
  /-- DECODE: rows = 0 or rows > 8 (R93). -/
  | invalidRowCount
  /-- any CMD write: reserved opcode or reserved bit set (R66). -/
  | illegalCommand
  deriving DecidableEq, Repr

/-- The state of the block (R15), and after it the model's own fields (INVENTORY.md, State). -/
structure State where
  /-- STATUS.ERR: the outcome of the most recent command (R19). -/
  err : BitVec 4
  /-- STATUS.STICKY: set by every faulting command (R19). -/
  sticky : Bool
  /-- FMT: the latched format (R20). -/
  fmt : Fmt
  /-- OFFSET: a count of bits from BUF[0] (R22). -/
  offset : Word
  /-- BUF_LEN: the length of the caller's buffer in bytes (R23). -/
  bufLen : Word
  /-- PIX_LEN: the number of valid pixels (R24). -/
  pixLen : BitVec 7
  /-- ERR_REQ (R25). -/
  errReq : Word
  /-- ERR_AVAIL (R26). -/
  errAvail : Word
  /-- PIX: the entries written since reset, keys 0 to 63 (R28). -/
  pix : Memory
  /-- BUF: the bytes written since reset, keys below BUF_SIZE (R29). -/
  buf : Memory
  /-- MODEL'S OWN: the implementation's parameters (log 1). -/
  cfg : Config
  /-- MODEL'S OWN: how many resets have been performed; it selects the free values (log 4). -/
  draw : Nat
  /-- MODEL'S OWN: the host's events not yet performed, the block's "program" (R17, R70; log 5). -/
  host : List HostEvent
  /-- MODEL'S OWN: the responses given so far, newest first (log 6). -/
  responses : List Response
  deriving DecidableEq, Repr

/-- Why a step stops. The spec stops the block nowhere: its own faults are `CmdFault`s, reported in a
next state. -/
inductive Fault where
  /-- Raised by `command` (Machine/Ops.lean) when a command would access BUF at or beyond BUF_SIZE, an
  address that does not exist (R9, R47). SAFE: no state that meets `State.Inv` reaches it. Log 7. -/
  | outsideBuf (addr : Nat)
  deriving DecidableEq, Repr

/-- Why an instruction has no meaning. -/
inductive Refusal where
  /-- Raised by no instruction of this model: every command has its meaning. SAFE. -/
  | notModelled (mnemonic : String)
  deriving DecidableEq, Repr

/-- FMT after reset: no format; BPP, ORD and STRIDE hold 0 (R20, R136). -/
def Fmt.reset : Fmt := { valid := false, bpp := 0#4, ord := .inOrder, stride := 0#16 }

/-- The state after reset (R135, R136): every register 0, nothing written in PIX or BUF. The model's
own fields: BUF_SIZE is the spec's example value 4096 (log 1), no reset before this one is counted
(log 4), the host has nothing to do (log 5) and nothing has been answered (log 6). -/
def State.reset : State where
  err := 0#4
  sticky := false
  fmt := Fmt.reset
  offset := 0#32
  bufLen := 0#32
  pixLen := 0#7
  errReq := 0#32
  errAvail := 0#32
  pix := []
  buf := []
  cfg := { bufSize := 4096 }
  draw := 0
  host := []
  responses := []

end Sys2Proof.Machine
end

