-- ==== Sys2Proof/Machine/Ops.lean ====
section
/-! DEFINITION. The named operations: byte memory, reads of PIX and BUF, counted loops, raising a command
fault, completing a command, the shared frame of every command, answering the bus, and reset. -/

namespace Sys2Proof.Machine

open Sys2Proof

/-- The result of a step. -/
abbrev Result := Host.Outcome State Fault Refusal

/-! ### Byte memory -/

/-- The byte written at `a` since reset, if any. -/
def Memory.lookup : Memory → Nat → Option Byte
  | [], _ => none
  | (k, v) :: m, a => if a = k then some v else Memory.lookup m a

/-- Writing `v` at `a`: one byte (R46), every other byte unchanged, addresses kept rising. -/
def Memory.write : Memory → Nat → Byte → Memory
  | [], a, v => [(a, v)]
  | (k, x) :: m, a, v =>
    if a < k then (a, v) :: (k, x) :: m
    else if a = k then (a, v) :: m
    else (k, x) :: Memory.write m a v

/-- The canonical form of a memory of `size` bytes: strictly rising addresses, all below `size`. (An
unlisted address is one not written since reset, so no entry can equal what an unlisted address holds.) -/
abbrev Memory.wf (size : Nat) (m : Memory) : Prop :=
  m.Pairwise (fun x y => x.1 < y.1) ∧ ∀ c ∈ m, c.1 < size

/-- A 4-byte write in little-endian order (R43): M[j] <- w[7:0] up to M[j+3] <- w[31:24]. -/
def Memory.writeWord (m : Memory) (j : Nat) (w : Word) : Memory :=
  Memory.write
    (Memory.write (Memory.write (Memory.write m j (field w 0 8)) (j + 1) (field w 8 8)) (j + 2) (field w 16 8))
    (j + 3) (field w 24 8)

/-- A 4-byte read in little-endian order (R43): the word with M[j] in bits [7:0] and M[j+3] in bits [31:24]. -/
def readWord (read : Nat → Byte) (j : Nat) : Word :=
  read (j + 3) ++ read (j + 2) ++ read (j + 1) ++ read j

/-- What a byte of BUF that nothing has written since reset reads as: a free value (U2, log 3). -/
def State.bufUnwritten (s : State) (a : Nat) : Byte := Config.bufAtReset s.draw a

/-- What an entry of PIX that nothing has written since reset reads as: a free value (U1, log 2). -/
def State.pixUnwritten (s : State) (j : Nat) : Byte := Config.pixAtReset s.draw j

/-- BUF[a] (R29): `MemRead(a, 1)` of R9, and the host's read of the BUF window (R45). -/
def State.bufAt (s : State) (a : Nat) : Byte :=
  (Memory.lookup s.buf a).getD (s.bufUnwritten a)

/-- PIX[j] (R28). -/
def State.pixAt (s : State) (j : Nat) : Byte :=
  (Memory.lookup s.pix j).getD (s.pixUnwritten j)

/-! ### Loops -/

/-- `for x in [0, n)`: the body runs for x = 0, 1, ..., n-1 in increasing order (R9). -/
def forUp {α : Type} : Nat → (Nat → α → α) → α → α
  | 0, _, a => a
  | n + 1, body, a => body n (forUp n body a)

/-! ### Faults and completion -/

/-- The fault codes of R118. -/
def CmdFault.code : CmdFault → BitVec 4
  | .invalidFormat => 1#4
  | .bufferTooShort _ _ => 2#4
  | .invalidInput _ _ => 3#4
  | .noFormat => 4#4
  | .unalignedOffset => 5#4
  | .invalidRowCount => 6#4
  | .illegalCommand => 7#4

/-- The lengths a fault records, for BufferTooShort and InvalidInput only (R117, R118). -/
def CmdFault.lengths : CmdFault → Option (Nat × Nat)
  | .bufferTooShort required avail => some (required, avail)
  | .invalidInput required avail => some (required, avail)
  | .invalidFormat => none
  | .noFormat => none
  | .unalignedOffset => none
  | .invalidRowCount => none
  | .illegalCommand => none

/-- `raise Fault(code, req, avail)` (R117): the block's whole fault entry. Nothing is saved beyond these
fields, no mode changes and control goes nowhere (R121). There is no return from a fault: "There is no
handler, no return-from-trap command, and no nesting" (R121); the host clears STICKY by a STATUS write. -/
def State.raise (s : State) (f : CmdFault) : State :=
  { s with
    err := f.code
    sticky := true
    errReq := match f.lengths with
      | some (required, _) => BitVec.ofNat 32 required
      | none => s.errReq
    errAvail := match f.lengths with
      | some (_, avail) => BitVec.ofNat 32 avail
      | none => s.errAvail }

/-- A command completes: STATUS.ERR <- 0, STICKY unchanged (R19). -/
def State.complete (s : State) : State := { s with err := 0#4 }

/-- The first cause that applies, in the order listed: the priority rule of R119. -/
def firstFault : List (Bool × CmdFault) → Option CmdFault
  | [] => none
  | (applies, f) :: rest => if applies then some f else firstFault rest

/-- The frame of every command: its checks come before its effect (R117, D16). A failing check ends the
command in the state the fault leaves; otherwise the command's accesses to BUF must exist (R9), and the
state `effect` is completed. The stop is the model's own and no legal state reaches it (R47, log 7). -/
def command (s : State) (check : Option CmdFault) (accesses : List Nat) (effect : State) : Result :=
  match check with
  | some f => .next (s.raise f)
  | none =>
    match accesses.find? (fun a => decide (s.cfg.bufSize ≤ a)) with
    | some a => .fault (.outsideBuf a)
    | none => .next effect.complete

/-! ### Updates of the state -/

/-- CONFIG latches the whole format at once (R73, R75). -/
def State.latch (s : State) (f : Fmt) : State := { s with fmt := f }

/-- DECODE's outputs: the pixel array and PIX_LEN (R95, R96). -/
def State.setPixels (s : State) (m : Memory) (n : Nat) : State :=
  { s with pix := m, pixLen := BitVec.ofNat 7 n }

/-- ENCODE's output: BUF (R107). -/
def State.setBuf (s : State) (m : Memory) : State := { s with buf := m }

/-- BUF_LEN <- n (R23, R108). -/
def State.setBufLen (s : State) (n : Nat) : State := { s with bufLen := BitVec.ofNat 32 n }

/-- The block answers a host transaction. -/
def State.respond (s : State) (r : Response) : State := { s with responses := r :: s.responses }

/-- The host's next event leaves its list. -/
def State.takeEvent (s : State) (rest : List HostEvent) : State := { s with host := rest }

/-- Reset (R135): every register at its reset value, PIX and BUF unspecified again (a new draw of the
free values, log 4). BUF_SIZE is not state (R15), and the host's events and the responses already given
are not the block's. -/
def State.afterReset (s : State) : State :=
  { State.reset with
    cfg := s.cfg
    draw := s.draw + 1
    host := s.host
    responses := s.responses }

/-- `f` on the next state; a stop stays as it is. -/
def onNext (o : Result) (f : State → State) : Result :=
  match o with
  | .next t => .next (f t)
  | .fault r => .fault r
  | .refused r => .refused r

end Sys2Proof.Machine
end

