-- ==== Sys2Proof/Machine/Operands.lean ====
section
/-! DEFINITION. The derived quantities of a format, stride addressing, the length check, the walk order
inside a byte, subword extraction and packing, and the loops of DECODE, ENCODE and ENCZ
(40_format.md R76 to R80, 41_decode.md R85 to R93, 42_encode.md R103). Arithmetic is on integers (R8). -/

namespace Sys2Proof.Machine

open Sys2Proof

/-! ### The format -/

/-- A candidate format is legal exactly when nb is in 1, 2, 4, 8 and ns >= -1 (R74). -/
def legalFormat (nb : Nat) (ns : Int) : Bool :=
  (nb == 1 || nb == 2 || nb == 4 || nb == 8) && decide (-1 ≤ ns)

/-- bitsPerPixel as a number. -/
def Fmt.bppNat (f : Fmt) : Nat := f.bpp.toNat

/-- strideTiles as an integer: 16-bit two's complement (R20). -/
def Fmt.st (f : Fmt) : Int := f.stride.toInt

/-- bytesPerRow = bpp (R76). -/
def Fmt.bpr (f : Fmt) : Nat := f.bppNat

/-- pixelsPerByte = 8 div bpp (R77). -/
def Fmt.ppb (f : Fmt) : Nat := 8 / f.bppNat

/-- pixelMask = (1 << bpp) - 1 (R78). -/
def Fmt.mask (f : Fmt) : Nat := (1 <<< f.bppNat) - 1

/-- tileSize = bpr * 8 (R79). -/
def Fmt.tileSize (f : Fmt) : Nat := f.bpr * 8

/-- colorCount = 2^bpp (R80). -/
def Fmt.colors (f : Fmt) : Nat := 2 ^ f.bppNat

/-- strideBytes = strideTiles * bytesPerRow (R86). -/
def Fmt.strideBytes (f : Fmt) : Int := f.st * f.bpr

/-- pitch = bpr + strideBytes (R86), a natural number: "For every legal stride, pitch >= 0". Log 9. -/
def Fmt.pitch (f : Fmt) : Nat := ((f.bpr : Int) + f.strideBytes).toNat

/-! ### Stride addressing and the length check -/

/-- base = OFFSET >> 3, the byte where the tile starts (R85). -/
def State.base (s : State) : Nat := s.offset.toNat >>> 3

/-- OFFSET[2:0] != 0 (R87). -/
def State.misaligned (s : State) : Bool := field s.offset 0 3 != 0#3

/-- addr(r, b) = base + r * pitch + b (R88). -/
def Fmt.addr (f : Fmt) (base r b : Nat) : Nat := base + r * f.pitch + b

/-- required(base, rows) = base + max(tileSize, (rows - 1) * pitch + bpr) (R91), for rows >= 1. -/
def Fmt.required (f : Fmt) (base rows : Nat) : Nat :=
  base + max f.tileSize ((rows - 1) * f.pitch + f.bpr)

/-- The byte addresses a command with `rows` rows walks, in loop order (R88, R97, R107). -/
def Fmt.walk (f : Fmt) (base rows : Nat) : List Nat :=
  (List.range rows).flatMap fun r => (List.range f.bpr).map fun b => f.addr base r b

/-! ### Subwords -/

/-- sub(k): the bit group of the pixel at walk position k (R89). -/
def Fmt.sub (f : Fmt) (k : Nat) : Nat :=
  match f.ord with
  | .inOrder => f.ppb - 1 - k
  | .reverseOrder => k

/-- The pixel at bit group `i` of byte `v`: (v >> (bpp * i)) & mask (R90). Log 9. -/
def Fmt.extract (f : Fmt) (v : Byte) (i : Nat) : Byte :=
  (v >>> (f.bppNat * i)) &&& BitVec.ofNat 8 f.mask

/-- pack(r, b): the encoded byte b of row r, from the pixels `pix` (R103). Log 9. -/
def Fmt.pack (f : Fmt) (pix : Nat → Byte) (r b : Nat) : Byte :=
  forUp f.ppb
    (fun k acc => acc ||| ((pix (r * 8 + b * f.ppb + k) &&& BitVec.ofNat 8 f.mask) <<< (f.bppNat * f.sub k)))
    0#8

/-! ### The commands' loops -/

/-- DECODE's loops (R94): PIX after unpacking `rows` rows of the tile at `base` from the bytes `read`. -/
def Fmt.unpackRows (f : Fmt) (read : Nat → Byte) (base rows : Nat) (pix : Memory) : Memory :=
  forUp rows (fun r =>
    forUp f.bpr (fun b =>
      forUp f.ppb (fun k m =>
        Memory.write m (r * 8 + b * f.ppb + k) (f.extract (read (f.addr base r b)) (f.sub k))))) pix

/-- ENCODE's and ENCZ's loops (R105, R106, R108): BUF after packing the 64 pixels `pix` at `base`, rows
ascending and bytes ascending within a row. -/
def Fmt.packRows (f : Fmt) (pix : Nat → Byte) (base : Nat) (buf : Memory) : Memory :=
  forUp 8 (fun r =>
    forUp f.bpr (fun b m => Memory.write m (f.addr base r b) (f.pack pix r b))) buf

/-- ENCZ's zero fill (R108): `for a in [0, n): MemWrite(a, 1, 0)`. -/
def zeroFill (n : Nat) (buf : Memory) : Memory :=
  forUp n (fun a m => Memory.write m a 0#8) buf

end Sys2Proof.Machine
end

