-- ==== Sys2Proof/Machine/Flags.lean ====
section
/-! DEFINITION. The registers as the host sees them (10_state.md R18 to R27) and the effect of a register
write (20_memory.md R42). Every flag of the block is in STATUS (R30). -/

namespace Sys2Proof.Machine

open Sys2Proof

/-- STATUS as a word (R19): STICKY at bit 8, ERR at bits 3:0, reserved bits 0. -/
def State.statusWord (s : State) : Word :=
  0#23 ++ BitVec.ofBool s.sticky ++ 0#4 ++ s.err

/-- FMT as a word (R20): STRIDE, VALID, ORD and BPP, reserved bits 0. -/
def Fmt.word (f : Fmt) : Word :=
  f.stride ++ 0#7 ++ BitVec.ofBool f.valid ++ 0#3 ++ f.ord.bit ++ f.bpp

/-- GEOM as a word (R21): COLORS, TILESIZE, MASK, PPB and BPR; 0 while FMT.VALID = 0. -/
def Fmt.geomWord (f : Fmt) : Word :=
  if f.valid then
    BitVec.ofNat 9 f.colors ++ BitVec.ofNat 7 f.tileSize ++ BitVec.ofNat 8 f.mask
      ++ BitVec.ofNat 4 f.ppb ++ BitVec.ofNat 4 f.bpr
  else 0#32

/-- The current value of a register, as a read returns it (R42; R18 for CMD). -/
def State.readReg (s : State) : Reg → Word
  | .cmd => 0#32
  | .status => s.statusWord
  | .fmt => s.fmt.word
  | .geom => s.fmt.geomWord
  | .offset => s.offset
  | .bufLen => s.bufLen
  | .pixLen => s.pixLen.setWidth 32
  | .errReq => s.errReq
  | .errAvail => s.errAvail
  | .bufsz => BitVec.ofNat 32 s.cfg.bufSize

/-- STATUS's write effect (R19, R42): bit 8 = 1 clears STICKY, nothing else changes. -/
def State.writeStatus (s : State) (w : Word) : State :=
  { s with sticky := s.sticky && !w.getLsbD 8 }

/-- OFFSET <- w (R42). -/
def State.writeOffset (s : State) (w : Word) : State := { s with offset := w }

/-- BUF_LEN <- min(w, BUF_SIZE) (R23, R42). -/
def State.writeBufLen (s : State) (w : Word) : State :=
  s.setBufLen (min w.toNat s.cfg.bufSize)

/-- PIX_LEN <- min(w, 64) (R24, R42). -/
def State.writePixLen (s : State) (w : Word) : State :=
  { s with pixLen := BitVec.ofNat 7 (min w.toNat 64) }

/-- The effect of a 32-bit host write to a register that executes nothing (R42). CMD is not written here:
a CMD write executes its word (`hostWrite`, Machine/Port.lean) and CMD holds no state (R18). -/
def State.writeReg (s : State) (r : Reg) (w : Word) : State :=
  match r with
  | .cmd => s
  | .status => s.writeStatus w
  | .fmt => s
  | .geom => s
  | .offset => s.writeOffset w
  | .bufLen => s.writeBufLen w
  | .pixLen => s.writePixLen w
  | .errReq => s
  | .errAvail => s
  | .bufsz => s

end Sys2Proof.Machine
end

