-- ==== Sys2Proof/Machine/Format.lean ====
section
/-! DEFINITION. CONFIG (40_format.md R73 to R75). -/

namespace Sys2Proof.Machine

open Sys2Proof

/-- CONFIG's only check (R73, R119). -/
def checkConfig (nb : Nat) (ns : Int) : Option CmdFault :=
  firstFault [(!legalFormat nb ns, .invalidFormat)]

/-- The format CONFIG latches (R73): all four fields at once, STRIDE <- ns mod 2^16. -/
def Fmt.candidate (nb : Nat) (no : PixelOrdering) (ns : Int) : Fmt :=
  { valid := true, bpp := BitVec.ofNat 4 nb, ord := no, stride := BitVec.ofInt 16 ns }

/-- CONFIG(nb, no, ns) (R73). -/
def execConfig (nb : Nat) (no : PixelOrdering) (ns : Int) (s : State) : Result :=
  command s (checkConfig nb ns) [] (s.latch (.candidate nb no ns))

end Sys2Proof.Machine
end

