-- ==== Sys2Proof/Machine/Pack.lean ====
section
/-! DEFINITION. ENCODE and ENCZ (42_encode.md R103 to R110). -/

namespace Sys2Proof.Machine

open Sys2Proof

/-- ENCODE's checks, in the order of R119: NoFormat, UnalignedOffset, InvalidInput, BufferTooShort. -/
def checkEncode (s : State) : Option CmdFault :=
  let required := s.fmt.required s.base 8
  firstFault [
    (!s.fmt.valid, .noFormat),
    (s.misaligned, .unalignedOffset),
    (decide (s.pixLen.toNat < 64), .invalidInput 64 s.pixLen.toNat),
    (decide (s.bufLen.toNat < required), .bufferTooShort required s.bufLen.toNat)]

/-- ENCODE() (R105): pack the 64 pixels of PIX into BUF at OFFSET. -/
def execEncode (s : State) : Result :=
  command s (checkEncode s) (s.fmt.walk s.base 8)
    (s.setBuf (s.fmt.packRows s.pixAt s.base s.buf))

/-- ENCZ's checks, in the order of R119: NoFormat, InvalidInput, BufferTooShort. The available length is
tileSize (R92); OFFSET and BUF_LEN are not read (R108). -/
def checkEncz (s : State) : Option CmdFault :=
  let required := s.fmt.required 0 8
  firstFault [
    (!s.fmt.valid, .noFormat),
    (decide (s.pixLen.toNat < 64), .invalidInput 64 s.pixLen.toNat),
    (decide (s.fmt.tileSize < required), .bufferTooShort required s.fmt.tileSize)]

/-- ENCZ() (R108): zero BUF[0, tileSize), BUF_LEN <- tileSize, then pack the 64 pixels of PIX at byte 0. -/
def execEncz (s : State) : Result :=
  command s (checkEncz s) (List.range s.fmt.tileSize ++ s.fmt.walk 0 8)
    ((s.setBufLen s.fmt.tileSize).setBuf
      (s.fmt.packRows s.pixAt 0 (zeroFill s.fmt.tileSize s.buf)))

end Sys2Proof.Machine
end

