-- ==== Sys2Proof/Machine/Unpack.lean ====
section
/-! DEFINITION. DECODE (41_decode.md R93 to R98). -/

namespace Sys2Proof.Machine

open Sys2Proof

/-- DECODE's checks, in the order of R119: NoFormat, InvalidRowCount, UnalignedOffset, BufferTooShort. -/
def checkDecode (rows : Nat) (s : State) : Option CmdFault :=
  let required := s.fmt.required s.base rows
  firstFault [
    (!s.fmt.valid, .noFormat),
    (decide (rows < 1 ∨ 8 < rows), .invalidRowCount),
    (s.misaligned, .unalignedOffset),
    (decide (s.bufLen.toNat < required), .bufferTooShort required s.bufLen.toNat)]

/-- DECODE(rows) (R94): unpack `rows` rows of a tile from BUF into PIX; PIX_LEN <- rows * 8 (R96). -/
def execDecode (rows : Nat) (s : State) : Result :=
  command s (checkDecode rows s) (s.fmt.walk s.base rows)
    (s.setPixels (s.fmt.unpackRows s.bufAt s.base rows s.pix) (rows * 8))

end Sys2Proof.Machine
end

