-- ==== Sys2Proof/Machine/Dispatch.lean ====
section
/-! DEFINITION. One arm per command: `exec` calls the command's meaning. -/

namespace Sys2Proof.Machine

open Sys2Proof

def exec (i : Instr) (s : State) : Host.Outcome State Fault Refusal :=
  match i with
  | .config bpp ord stride => Sys2Proof.Machine.execConfig bpp ord stride s
  | .decode rows => Sys2Proof.Machine.execDecode rows s
  | .encode => Sys2Proof.Machine.execEncode s
  | .encz => Sys2Proof.Machine.execEncz s

end Sys2Proof.Machine
end

