-- ==== Sys2Proof/Machine/Port.lean ====
section
/-! DEFINITION. The host port: the address map, the admitted transactions, reads, writes, the execution of
a CMD write, and the host's events (20_memory.md R39 to R45, 30_encoding.md R69, 70_reset_and_hazards.md R135). -/

namespace Sys2Proof.Machine

open Sys2Proof

/-- The register at word index `i`, host offset 4 * i (R39). -/
def Reg.ofIndex : Nat → Option Reg
  | 0 => some .cmd
  | 1 => some .status
  | 2 => some .fmt
  | 3 => some .geom
  | 4 => some .offset
  | 5 => some .bufLen
  | 6 => some .pixLen
  | 7 => some .errReq
  | 8 => some .errAvail
  | 9 => some .bufsz
  | _ => none

/-- The host offset of a register (R39). -/
def Reg.addr : Reg → Word
  | .cmd => 0x000#32
  | .status => 0x004#32
  | .fmt => 0x008#32
  | .geom => 0x00C#32
  | .offset => 0x010#32
  | .bufLen => 0x014#32
  | .pixLen => 0x018#32
  | .errReq => 0x01C#32
  | .errAvail => 0x020#32
  | .bufsz => 0x024#32

/-- The base of the PIX window (R39). -/
def pixBase : Nat := 0x1000

/-- The base of the BUF window (R39). -/
def bufBase : Nat := 0x80000000

/-- A window access of `n` bytes at window index `j` of a window of `len` bytes (R40, R41, R44, R45):
1 byte anywhere in the window; 4 bytes if aligned and all four lie inside. `a` is the host offset. -/
def windowTarget (len a j n : Nat) (byte word : Nat → Target) : Option Target :=
  if n = 1 ∧ j < len then some (byte j)
  else if n = 4 ∧ a % 4 = 0 ∧ j + 3 < len then some (word j)
  else none

/-- What a transaction of `n` bytes at host offset `a` reaches, if it is admitted (R39 to R41). -/
def target (cfg : Config) (a n : Nat) : Option Target :=
  if a < 0x28 then
    if n = 4 ∧ a % 4 = 0 then (Reg.ofIndex (a / 4)).map .reg else none
  else if pixBase ≤ a ∧ a < pixBase + 64 then
    windowTarget 64 a (a - pixBase) n .pixByte .pixWord
  else if bufBase ≤ a ∧ a < bufBase + cfg.bufSize then
    windowTarget cfg.bufSize a (a - bufBase) n .bufByte .bufWord
  else none

/-- The data an admitted read returns (R42, R44, R45). -/
def State.readTarget (s : State) : Target → Word
  | .reg r => s.readReg r
  | .pixByte j => (s.pixAt j).setWidth 32
  | .pixWord j => readWord s.pixAt j
  | .bufByte a => (s.bufAt a).setWidth 32
  | .bufWord a => readWord s.bufAt a

/-- A host write to the PIX window: PIX_LEN does not change (R24, R44). -/
def State.setPix (s : State) (m : Memory) : State := { s with pix := m }

/-- The effect of an admitted write that executes nothing (R42 to R45). -/
def State.writeTarget (s : State) (t : Target) (w : Word) : State :=
  match t with
  | .reg r => s.writeReg r w
  | .pixByte j => s.setPix (Memory.write s.pix j (field w 0 8))
  | .pixWord j => s.setPix (Memory.writeWord s.pix j w)
  | .bufByte a => s.setBuf (Memory.write s.buf a (field w 0 8))
  | .bufWord a => s.setBuf (Memory.writeWord s.buf a w)

/-- `execute(w)` (R69): the command the word decodes to, or the fault IllegalCommand (R66). -/
def executeWord (w : Word) (s : State) : Result :=
  match decode w with
  | .ok i => exec i s
  | .error _ => .next (s.raise .illegalCommand)

/-- A host read (R40 to R42): OKAY and the value, or SLVERR and 0; no side effect. -/
def hostRead (a : Word) (n : Nat) (s : State) : State :=
  match target s.cfg a.toNat n with
  | some t => s.respond (.read .okay (s.readTarget t))
  | none => s.respond (.read .slverr 0#32)

/-- A host write (R40 to R42): a CMD write executes its word before it completes (R18); a fault of the
command is reported in STATUS and the response is OKAY (R117); a refused write changes no state (R41, R122). -/
def hostWrite (a : Word) (n : Nat) (w : Word) (s : State) : Result :=
  match target s.cfg a.toNat n with
  | some (.reg .cmd) => onNext (executeWord w s) (fun t => t.respond (.write .okay))
  | some t => .next ((s.writeTarget t w).respond (.write .okay))
  | none => .next (s.respond (.write .slverr))

/-- One event of the total order of R51. A CMD write cut by reset leaves what reset leaves (R135, log 8). -/
def perform (e : HostEvent) (s : State) : Result :=
  match e with
  | .read a n => .next (hostRead a n s)
  | .write a n w => hostWrite a n w s
  | .reset => .next s.afterReset
  | .resetDuringCmd _ => .next s.afterReset

end Sys2Proof.Machine
end

