-- ==== Sys2Proof/Machine/Step.lean ====
section
/-! DEFINITION. One step: the host's next event (00_scope.md R5, 20_memory.md R51), and how the host's
checks place a command word. -/

namespace Sys2Proof.Machine

open Sys2Proof

/-- One step of the whole system (R5): the host's next event is performed. While the host does nothing the
block "is idle and keeps all its state" (R130). -/
def step (s : State) : Host.Outcome State Fault Refusal :=
  match s.host with
  | [] => .next s
  | e :: rest => perform e (s.takeEvent rest)

/-- `s` with a CMD write of the opcode-table word `w` as the host's next event, so that the next step
executes exactly that word (R17, R69; log 5). A command is one 32-bit word, whatever `nbits` says of it (R68). -/
def State.withFetchWord (s : State) (_nbits w : Nat) : State :=
  { s with host := .write Reg.cmd.addr 4 (BitVec.ofNat 32 w) :: s.host }

end Sys2Proof.Machine
end

