-- ==== Sys2Proof/Machine/Assembler.lean ====
section
/-! DEFINITION. Host programs as text: the statements of 30_encoding.md R70 and the pseudo-instructions of
R71, expanded to host events. No semantics of the block depends on it (D35). -/

namespace Sys2Proof.Machine

open Sys2Proof

/-- `<loc>` of R70: a register name, `PIX+j`, `BUF+a`, or a numeric host offset. -/
inductive Loc where
  | reg (r : Reg)
  | pix (j : Nat)
  | buf (a : Nat)
  | offset (a : Word)
  deriving DecidableEq, Repr

/-- The host offset of a location (R39). DESIGN CHOICE, log 13: the spec does not say what the assembler does
with `PIX+j` or `BUF+a` whose offset needs more than 32 bits; here the offset is taken modulo 2^32, so
`BUF+0x80000000` names offset 0, CMD. -/
def Loc.addr : Loc → Word
  | .reg r => r.addr
  | .pix j => BitVec.ofNat 32 (pixBase + j)
  | .buf a => BitVec.ofNat 32 (bufBase + a)
  | .offset a => a

/-- One line of a host program (R70) or one pseudo-instruction (R71). -/
inductive Line where
  | wr32 (loc : Loc) (value : Word)
  | wr8 (loc : Loc) (value : Byte)
  | rd32 (loc : Loc)
  | rd8 (loc : Loc)
  /-- `CONFIG`, `DECODE <rows>`, `ENCODE`, `ENCZ`. -/
  | command (i : Instr)
  /-- `DECODE` with no operand. -/
  | decodeAll
  /-- `DEC <bits>, <rows>`. -/
  | dec (bits : Word) (rows : Nat)
  /-- `ENC <bits>`. -/
  | enc (bits : Word)
  /-- `SETBUF <len>`. -/
  | setBuf (len : Word)
  /-- `SETPIX <n>`. -/
  | setPix (n : Word)
  /-- `CLRERR`. -/
  | clrErr
  deriving DecidableEq, Repr

/-- `WR32 <loc>, <value>` (R70). -/
def wr32 (l : Loc) (v : Word) : HostEvent := .write l.addr 4 v

/-- The CMD write of a command; the assembler refuses a field value that does not fit its field (R70). -/
def assembleCommand (i : Instr) : Option HostEvent :=
  if i.WellFormed then some (wr32 (.reg .cmd) (encode i)) else none

/-- The host events a line stands for (R70, R71); `none` where the assembler refuses it. -/
def assembleLine : Line → Option (List HostEvent)
  | .wr32 l v => some [wr32 l v]
  | .wr8 l v => some [.write l.addr 1 (v.setWidth 32)]
  | .rd32 l => some [.read l.addr 4]
  | .rd8 l => some [.read l.addr 1]
  | .command i => (assembleCommand i).map ([·])
  | .decodeAll => (assembleCommand (.decode 8)).map ([·])
  | .dec bits rows => (assembleCommand (.decode rows)).map ([wr32 (.reg .offset) bits, ·])
  | .enc bits => (assembleCommand .encode).map ([wr32 (.reg .offset) bits, ·])
  | .setBuf len => some [wr32 (.reg .bufLen) len]
  | .setPix n => some [wr32 (.reg .pixLen) n]
  | .clrErr => some [wr32 (.reg .status) 0x00000100#32]

/-- A program: an ordered list of host transactions, one per line (R70). -/
def assemble : List Line → Option (List HostEvent)
  | [] => some []
  | l :: rest =>
    match assembleLine l, assemble rest with
    | some es, some more => some (es ++ more)
    | _, _ => none

end Sys2Proof.Machine
end

