-- ==== Sys2Proof/Safety.lean ====
section
/-! DEFINITION. What a legal state is, and what a safe step is: the terms the claims use. -/

namespace Sys2Proof.Machine

open Sys2Proof

/-- FMT holds a legal format while VALID = 1, and the reset values while VALID = 0 (R20, R74). -/
abbrev Fmt.legal (f : Fmt) : Prop :=
  if f.valid then legalFormat f.bppNat f.st = true else f = Fmt.reset

/-- The legal states of the block: what holds at reset and every step keeps. -/
structure State.Inv (s : State) : Prop where
  /-- 64 <= BUF_SIZE <= 2^31 (R6). -/
  cfg : s.cfg.wf
  /-- ERR values 8 to 15 are never produced (R19, R118). -/
  err : s.err.toNat ≤ 7
  /-- FMT is legal, or at its reset values (R20). -/
  fmt : s.fmt.legal
  /-- BUF_LEN <= BUF_SIZE: a write stores min(v, BUF_SIZE) (R23). -/
  bufLen : s.bufLen.toNat ≤ s.cfg.bufSize
  /-- PIX_LEN <= 64: a write stores min(v, 64) (R24). -/
  pixLen : s.pixLen.toNat ≤ 64
  /-- PIX is in canonical form and has 64 entries (R28). -/
  pix : Memory.wf 64 s.pix
  /-- BUF is in canonical form and has BUF_SIZE bytes (R29). -/
  buf : Memory.wf s.cfg.bufSize s.buf

/-- A latched format: VALID = 1 and the values are legal (R20, R74). -/
abbrev Fmt.latched (f : Fmt) : Prop := f.valid = true ∧ legalFormat f.bppNat f.st = true

/-- The admitted transactions of `n` bytes at host offset `a`, as R40 and R41 list them: registers with
n = 4 and a mod 4 = 0; the two windows with n = 1 anywhere, or n = 4 aligned, every byte inside. -/
abbrev Admitted (bufSize a n : Nat) : Prop :=
  (a < 0x28 ∧ n = 4 ∧ a % 4 = 0) ∨
  ((n = 1 ∨ (n = 4 ∧ a % 4 = 0)) ∧
    ((0x1000 ≤ a ∧ a + n ≤ 0x1040) ∨ (0x80000000 ≤ a ∧ a + n ≤ 0x80000000 + bufSize)))

/-- A safe step: the machine goes on (it neither faults nor refuses). -/
def goesOn (o : Host.Outcome State Fault Refusal) : Prop := ∃ t, o = .next t

end Sys2Proof.Machine
end

