-- ==== Sys2Proof/Certificates/Slice0/Obligations.lean ====
section
/-! DEFINITION. The statements about the model, taken from the numbered rules of spec/. Each is listed in
OBLIGATIONS.json. -/

open Sys2Proof Sys2Proof.Machine

/-! ### Encoding and decoding -/

/-- R72: the worked encodings. Each text encodes to its word and the word decodes to the text; CONFIG 3
assembles and faults InvalidFormat. -/
def Obligations.WorkedEncodings : Prop :=
  (∀ p ∈ [
      (Instr.config 4 .inOrder 0, 0x00000041#32),
      (.config 4 .reverseOrder 1, 0x00010141#32),
      (.config 4 .inOrder (-1), 0xFFFF0041#32),
      (.config 3 .inOrder 0, 0x00000031#32),
      (.config 1 .reverseOrder 2, 0x00020111#32),
      (.config 2 .reverseOrder 0, 0x00000121#32),
      (.config 8 .inOrder 0, 0x00000081#32),
      (.decode 8, 0x00000082#32),
      (.decode 4, 0x00000042#32),
      (.encode, 0x00000003#32),
      (.encz, 0x00000004#32)],
    p.1.WellFormed ∧ encode p.1 = p.2 ∧ decode p.2 = .ok p.1) ∧
  ∀ s : State, exec (.config 3 .inOrder 0) s = .next { s with err := 1#4, sticky := true }

/-- R65: a word selects a command when (w & mask) = match, and no two rows match the same word. -/
def Obligations.OpcodeMapSelectsByMatchAndMask : Prop :=
  ∀ w : Word,
    ((∃ nb no ns, decode w = .ok (.config nb no ns)) ↔ w &&& 0x0000FE0F#32 = 0x00000001#32) ∧
    ((∃ rows, decode w = .ok (.decode rows)) ↔ w &&& 0xFFFFFF0F#32 = 0x00000002#32) ∧
    (decode w = .ok .encode ↔ w &&& 0xFFFFFFFF#32 = 0x00000003#32) ∧
    (decode w = .ok .encz ↔ w &&& 0xFFFFFFFF#32 = 0x00000004#32) ∧
    List.Pairwise (fun p q : Word × Word => ¬(w &&& p.2 = p.1 ∧ w &&& q.2 = q.1))
      [(0x00000001#32, 0x0000FE0F#32), (0x00000002#32, 0xFFFFFF0F#32),
       (0x00000003#32, 0xFFFFFFFF#32), (0x00000004#32, 0xFFFFFFFF#32)]

/-- R66: which words are illegal, and that writing one to CMD faults with IllegalCommand (code 7), gets
OKAY and changes nothing but STATUS. -/
def Obligations.IllegalWordFaultsInStatusOnly : Prop :=
  (∀ w : Word, (∃ e, decode w = .error e) ↔
      (w.toNat % 16 = 0 ∨ 5 ≤ w.toNat % 16 ∨
        (w.toNat % 16 = 1 ∧ w.toNat / 512 % 128 ≠ 0) ∨
        (w.toNat % 16 = 2 ∧ w.toNat / 256 ≠ 0) ∨
        ((w.toNat % 16 = 3 ∨ w.toNat % 16 = 4) ∧ w.toNat / 16 ≠ 0))) ∧
  (∃ e, decode 0x00000000#32 = .error e) ∧
  ∀ (w : Word) (e : Illegal) (s : State) (rest : List HostEvent),
    decode w = .error e → s.host = .write 0x000#32 4 w :: rest →
      step s = .next { s with
        err := 7#4, sticky := true, host := rest, responses := .write .okay :: s.responses }

/-- R60, R61, R64: the operands of a legal CONFIG or DECODE word are its fields: bpp and rows are bits
[7:4], unsigned; ord is bit 8; stride is bits [31:16] as two's complement. -/
def Obligations.OperandsAreTheWordsFields : Prop :=
  ∀ w : Word,
    (w.toNat % 16 = 1 → w.toNat / 512 % 128 = 0 →
      decode w = .ok (.config (w.toNat / 16 % 16)
        (if w.toNat / 256 % 2 = 1 then .reverseOrder else .inOrder)
        (if w.toNat / 65536 < 32768 then (w.toNat / 65536 : Int) else (w.toNat / 65536 : Int) - 65536))) ∧
    (w.toNat % 16 = 2 → w.toNat / 256 = 0 → decode w = .ok (.decode (w.toNat / 16 % 16)))

/-- R60 to R64: every well-formed command, with every operand its encoding admits, decodes to itself. -/
def Obligations.DecodeOfEncodeIsIdentity : Prop :=
  ∀ i : Instr, i.WellFormed → decode (encode i) = .ok i

/-- R64, R68, R69: a word that decodes is the word of a well-formed command. -/
def Obligations.EncodeOfDecodeIsIdentity : Prop :=
  ∀ (w : Word) (i : Instr), decode w = .ok i → i.WellFormed ∧ encode i = w

/-- R70, R71: the words of the assembler, the expansions of the pseudo-instructions, and that a field value
that does not fit is refused while an encodable but illegal one is not. -/
def Obligations.AssemblerExpansions : Prop :=
  (∀ i : Instr, i.WellFormed → assembleLine (.command i) = some [.write 0x000#32 4 (encode i)]) ∧
  (∀ i : Instr, ¬ i.WellFormed → assembleLine (.command i) = none) ∧
  assembleLine .decodeAll = some [.write 0x000#32 4 0x00000082#32] ∧
  (∀ (bits : Word) (rows : Nat), rows ≤ 15 → assembleLine (.dec bits rows) =
    some [.write 0x010#32 4 bits, .write 0x000#32 4 (encode (.decode rows))]) ∧
  (∀ bits : Word, assembleLine (.enc bits) =
    some [.write 0x010#32 4 bits, .write 0x000#32 4 0x00000003#32]) ∧
  (∀ len : Word, assembleLine (.setBuf len) = some [.write 0x014#32 4 len]) ∧
  (∀ n : Word, assembleLine (.setPix n) = some [.write 0x018#32 4 n]) ∧
  assembleLine .clrErr = some [.write 0x004#32 4 0x00000100#32] ∧
  (∀ no ns, assembleLine (.command (.config 16 no ns)) = none) ∧
  (∀ no, assembleLine (.command (.config 4 no 32768)) = none) ∧
  assembleLine (.command (.config 3 .inOrder (-2))) = some [.write 0x000#32 4 0xFFFE0031#32]

/-! ### Steps, reset and legal states -/

/-- R17, R42, R69: when the host's next event is a CMD write of a word that decodes to `i`, the step is
`exec i` on the state with that event taken, and then the OKAY response. -/
def Obligations.StepRunsTheDecodedCommand : Prop :=
  ∀ (s : State) (w : Word) (i : Instr) (rest : List HostEvent),
    s.host = .write 0x000#32 4 w :: rest → decode w = .ok i →
      step s = match exec i { s with host := rest } with
        | .next t => .next { t with responses := .write .okay :: t.responses }
        | .fault r => .fault r
        | .refused r => .refused r

/-- R130: while the host does nothing the block keeps all its state. -/
def Obligations.IdleHostKeepsState : Prop :=
  ∀ s : State, s.host = [] → step s = .next s

/-- R136: right after reset every register field is 0 and every register but BUFSZ reads 0. BUF_SIZE is a
parameter: that BUFSZ reads 4096 is the model's example value (log 1) and no part of this statement. -/
def Obligations.ResetRegistersAreZero : Prop :=
  (∀ r : Reg, r ≠ .bufsz → State.reset.readReg r = 0#32) ∧
  State.reset.err = 0#4 ∧ State.reset.sticky = false ∧ State.reset.fmt.valid = false ∧
  State.reset.fmt.bpp = 0#4 ∧ State.reset.fmt.ord.bit = 0#1 ∧ State.reset.fmt.stride = 0#16 ∧
  State.reset.offset = 0#32 ∧ State.reset.bufLen = 0#32 ∧ State.reset.pixLen = 0#7 ∧
  State.reset.errReq = 0#32 ∧ State.reset.errAvail = 0#32

/-- R135: a reset event, between transactions or cutting a CMD write, puts every register at its reset value
from any state, gives no response, and leaves PIX and BUF unspecified. The model's form of "unspecified" is
a free value of a new draw (logs 2, 3, 4); BUF_SIZE, the host's events and the responses given stay. -/
def Obligations.ResetEventRestoresRegisters : Prop :=
  ∀ (s : State) (e : HostEvent) (rest : List HostEvent),
    s.host = e :: rest → (e = .reset ∨ ∃ w, e = .resetDuringCmd w) →
      ∃ t, step s = .next t ∧
        t = { State.reset with cfg := s.cfg, draw := s.draw + 1, host := rest, responses := s.responses } ∧
        (∀ j, t.pixAt j = Config.pixAtReset (s.draw + 1) j) ∧
        (∀ a, t.bufAt a = Config.bufAtReset (s.draw + 1) a)

/-- R136: the state after reset is a legal state, with the BUF_SIZE the model chose (log 1) and nothing
written in PIX or BUF (logs 2, 3). -/
def Obligations.ResetStateIsLegal : Prop := State.reset.Inv

/-- Every step from a legal state leads to a legal state: ERR at most 7 (R118), FMT legal or at its reset
values (R20), BUF_LEN <= BUF_SIZE (R23), PIX_LEN <= 64 (R24), both memories in canonical form and inside
their sizes (R28, R29, R47). -/
def Obligations.EveryStepKeepsLegalStates : Prop :=
  ∀ s t : State, s.Inv → step s = .next t → t.Inv

/-- R47, R121: from a legal state every command and every step goes on: the model's one stop, a command's
access at or beyond BUF_SIZE (log 7), is never reached. -/
def Obligations.LegalStatesNeverStop : Prop :=
  ∀ s : State, s.Inv → (∀ i : Instr, goesOn (exec i s)) ∧ goesOn (step s)

/-! ### CONFIG and the format -/

/-- R73, R75, R82: CONFIG of a legal candidate completes, latches all four fields at once and changes
nothing else but ERR. -/
def Obligations.ConfigLatchesTheFormat : Prop :=
  ∀ (nb : Nat) (no : PixelOrdering) (ns : Int) (s : State),
    (nb = 1 ∨ nb = 2 ∨ nb = 4 ∨ nb = 8) → -1 ≤ ns → ns ≤ 32767 →
      exec (.config nb no ns) s = .next { s with
        fmt := { valid := true, bpp := BitVec.ofNat 4 nb, ord := no, stride := BitVec.ofInt 16 ns }
        err := 0#4 }

/-- R74: a candidate format is legal exactly when nb is in 1, 2, 4, 8 and ns >= -1; for nb in 0 to 15 that is
"positive and 8 mod nb = 0"; every ordering is legal. CONFIG completes on a legal candidate and faults
InvalidFormat on any other, changing nothing but STATUS. An encodable ns is at most 32767. -/
def Obligations.ConfigAcceptsExactlyLegalFormats : Prop :=
  ∀ (nb : Nat) (no : PixelOrdering) (ns : Int) (s : State), nb ≤ 15 →
    ((0 < nb ∧ 8 % nb = 0) ↔ (nb = 1 ∨ nb = 2 ∨ nb = 4 ∨ nb = 8)) ∧
    (((nb = 1 ∨ nb = 2 ∨ nb = 4 ∨ nb = 8) ∧ -1 ≤ ns) →
      ∃ t, exec (.config nb no ns) s = .next t ∧ t.err = 0#4 ∧ t.fmt.valid = true) ∧
    (¬((nb = 1 ∨ nb = 2 ∨ nb = 4 ∨ nb = 8) ∧ -1 ≤ ns) →
      exec (.config nb no ns) s = .next { s with err := 1#4, sticky := true }) ∧
    ∀ w : Word, decode w = .ok (.config nb no ns) → ns ≤ 32767

/-- R81: the derived values and the GEOM word for each legal bpp, and GEOM = 0 while VALID = 0. -/
def Obligations.DerivedFieldsTable : Prop :=
  ∀ (ord : PixelOrdering) (stride : BitVec 16),
    (∀ p ∈ [(1, 1, 8, 0x01, 8, 2, 0x01080181#32), (2, 2, 4, 0x03, 16, 4, 0x02100342#32),
            (4, 4, 2, 0x0F, 32, 16, 0x08200F24#32), (8, 8, 1, 0xFF, 64, 256, 0x8040FF18#32)],
      match p with
      | (bpp, bpr, ppb, mask, tileSize, colors, geom) =>
        let f : Fmt := { valid := true, bpp := BitVec.ofNat 4 bpp, ord := ord, stride := stride }
        f.bpr = bpr ∧ f.ppb = ppb ∧ f.mask = mask ∧ f.tileSize = tileSize ∧ f.colors = colors ∧
          f.geomWord = geom ∧
          geom.toNat = (((colors <<< 23 ||| tileSize <<< 16) ||| mask <<< 8) ||| ppb <<< 4) ||| bpr) ∧
    ∀ f : Fmt, f.valid = false → f.geomWord = 0#32

/-- R75: the format changes only at a completed CONFIG, which writes all four fields at once, or at reset; a
CONFIG that faults writes no field; VALID goes from 0 to 1 only at a completed CONFIG and returns to 0 only at reset. -/
def Obligations.FormatChangesOnlyByConfigOrReset : Prop :=
  ∀ (s t : State) (e : HostEvent) (rest : List HostEvent), s.host = e :: rest → step s = .next t →
    (t.fmt ≠ s.fmt →
      (∃ w nb no ns, e = .write 0x000#32 4 w ∧ decode w = .ok (.config nb no ns) ∧ t.err = 0#4 ∧
        t.fmt = { valid := true, bpp := BitVec.ofNat 4 nb, ord := no, stride := BitVec.ofInt 16 ns }) ∨
      e = .reset ∨ ∃ w, e = .resetDuringCmd w) ∧
    (∀ w nb no ns, e = .write 0x000#32 4 w → decode w = .ok (.config nb no ns) →
      (t.err = 0#4 → t.fmt = { valid := true, bpp := BitVec.ofNat 4 nb, ord := no, stride := BitVec.ofInt 16 ns }) ∧
      (t.err ≠ 0#4 → t.fmt = s.fmt)) ∧
    (s.fmt.valid = false → t.fmt.valid = true →
      ∃ w nb no ns, e = .write 0x000#32 4 w ∧ decode w = .ok (.config nb no ns) ∧ t.err = 0#4) ∧
    (s.fmt.valid = true → t.fmt.valid = false → e = .reset ∨ ∃ w, e = .resetDuringCmd w)

/-- R137: after reset there is no format; while there is none, DECODE, ENCODE and ENCZ fault with NoFormat
(code 4), whatever else is wrong with them (R119), and change nothing but STATUS; only a CONFIG that
completes ends that. -/
def Obligations.NoFormatUntilConfig : Prop :=
  State.reset.fmt.valid = false ∧
  ∀ s : State, s.fmt.valid = false →
    (∀ (i : Instr) (t : State), exec i s = .next t →
      (t.fmt.valid = true ↔ (t.err = 0#4 ∧ ∃ nb no ns, i = .config nb no ns))) ∧
    (∀ rows, exec (.decode rows) s = .next { s with err := 4#4, sticky := true }) ∧
    exec .encode s = .next { s with err := 4#4, sticky := true } ∧
    exec .encz s = .next { s with err := 4#4, sticky := true }

/-! ### Stride addressing, the length check, subwords -/

/-- R86: strideBytes and the row pitch of every legal format, and its cases st = 0, st > 0 and st = -1. -/
def Obligations.RowPitchFollowsTheStride : Prop :=
  ∀ f : Fmt, f.latched →
    f.strideBytes = f.st * f.bpr ∧
    (f.pitch : Int) = f.bpr + f.strideBytes ∧
    (f.pitch : Int) = f.bpr * (f.st + 1) ∧
    (∀ base r, f.addr base (r + 1) 0 = f.addr base r 0 + f.pitch) ∧
    (f.st = 0 → f.pitch = f.bpr) ∧
    (0 < f.st → (f.pitch : Int) = f.bpr + f.st * f.bpr) ∧
    (f.st = -1 → f.pitch = 0 ∧ ∀ base r, f.addr base r 0 = base)

/-- R88: the address of encoded byte b of row r, and the largest address a command with `rows` rows touches. -/
def Obligations.WalkedAddresses : Prop :=
  ∀ (f : Fmt) (base : Nat), f.latched →
    (∀ r b, f.addr base r b = base + r * f.pitch + b ∧ base ≤ f.addr base r b) ∧
    ∀ rows a, 1 ≤ rows →
      (a ∈ f.walk base rows ↔ ∃ r b, r < rows ∧ b < f.bpr ∧ a = base + r * f.pitch + b) ∧
      (a ∈ f.walk base rows → a ≤ base + (rows - 1) * f.pitch + f.bpr - 1) ∧
      base + (rows - 1) * f.pitch + f.bpr - 1 ∈ f.walk base rows

/-- R91: the required length, when its tileSize term is the larger, and its bound for every encodable
operand. -/
def Obligations.RequiredLength : Prop :=
  ∀ (f : Fmt) (offset : Word) (rows : Nat), f.latched → 1 ≤ rows → rows ≤ 8 →
    let base := offset.toNat / 8
    f.required base rows = base + max (8 * f.bpr) ((rows - 1) * f.pitch + f.bpr) ∧
    ((rows - 1) * f.pitch + f.bpr ≤ f.tileSize ↔ ((rows : Int) - 1) * (f.st + 1) + 1 ≤ 8) ∧
    (f.st ≤ 0 → f.required base rows = base + f.tileSize) ∧
    base < 2 ^ 29 ∧ (rows - 1) * f.pitch + f.bpr ≤ 7 * 32768 * 8 + 8 ∧
    f.required base rows < 2 ^ 31

/-- R90: the pixel at bit group i of byte v is (v >> (bpp * i)) & mask on integers; the shift is at most
8 - bpp and the result is below colors. -/
def Obligations.ExtractedPixelIsItsBitGroup : Prop :=
  ∀ (f : Fmt) (v : Byte) (i : Nat), f.latched → i < f.ppb →
    (f.extract v i).toNat = (v.toNat >>> (f.bppNat * i)) &&& (2 ^ f.bppNat - 1) ∧
    f.bppNat * i ≤ 8 - f.bppNat ∧ (f.extract v i).toNat < f.colors

/-- R89, R103: in the packed byte b of row r, the pixel at walk position k (tile column b*ppb + k) stands in
bit group sub(k), masked to bpp bits: group ppb-1-k for InOrder, group k for ReverseOrder. -/
def Obligations.PackedByteHoldsEachPixel : Prop :=
  ∀ (f : Fmt) (pix : Nat → Byte) (r b k : Nat), f.latched → k < 8 / f.bppNat →
    let group := if f.ord = .inOrder then 8 / f.bppNat - 1 - k else k
    (f.pack pix r b).toNat / 2 ^ (f.bppNat * group) % 2 ^ f.bppNat =
      (pix (r * 8 + b * (8 / f.bppNat) + k)).toNat % 2 ^ f.bppNat

/-! ### DECODE -/

/-- R85, R88 to R90, R94 to R96: when FMT is latched, rows is 1 to 8, OFFSET is a multiple of 8 and the buffer
is long enough, DECODE completes; entry r*8 + b*ppb + k is the pixel at walk position k of the byte at
OFFSET/8 + r*pitch + b; PIX_LEN is rows*8; entries from rows*8 on and all other state are unchanged. -/
def Obligations.DecodeUnpacksRows : Prop :=
  ∀ (s : State) (rows : Nat), s.Inv → s.fmt.valid = true → 1 ≤ rows → rows ≤ 8 →
    s.offset.toNat % 8 = 0 → s.fmt.required (s.offset.toNat / 8) rows ≤ s.bufLen.toNat →
    ∃ t, exec (.decode rows) s = .next t ∧
      t = { s with err := 0#4, pixLen := BitVec.ofNat 7 (rows * 8), pix := t.pix } ∧
      (∀ r b k, r < rows → b < s.fmt.bpr → k < s.fmt.ppb →
        t.pixAt (r * 8 + b * s.fmt.ppb + k) =
          s.fmt.extract (s.bufAt (s.offset.toNat / 8 + r * s.fmt.pitch + b))
            (if s.fmt.ord = .inOrder then s.fmt.ppb - 1 - k else k)) ∧
      (∀ j, rows * 8 ≤ j → t.pixAt j = s.pixAt j) ∧
      (∀ a, t.bufAt a = s.bufAt a)

/-- R98: every entry a completed DECODE writes is below colors, and no shift reaches the width of a byte. -/
def Obligations.DecodedPixelsAreInRange : Prop :=
  ∀ (s t : State) (rows : Nat), s.Inv → exec (.decode rows) s = .next t → t.err = 0#4 →
    (∀ j, j < rows * 8 → (t.pixAt j).toNat < s.fmt.colors ∧
      ∀ n, s.fmt.bppNat ≤ n → (t.pixAt j).getLsbD n = false) ∧
    ∀ k, k < s.fmt.ppb → s.fmt.bppNat * s.fmt.sub k ≤ 8 - s.fmt.bppNat

/-- R87, R92, R93, R117 to R119: DECODE's faults with a format, in their priority, and everything each
leaves: codes 6, 5 and 2, the last with ERR_REQ = required and ERR_AVAIL = BUF_LEN. -/
def Obligations.DecodeFaultPriority : Prop :=
  ∀ (s : State) (rows : Nat), s.fmt.valid = true →
    (rows = 0 ∨ 8 < rows → exec (.decode rows) s = .next { s with err := 6#4, sticky := true }) ∧
    (1 ≤ rows → rows ≤ 8 → s.offset.toNat % 8 ≠ 0 →
      exec (.decode rows) s = .next { s with err := 5#4, sticky := true }) ∧
    (1 ≤ rows → rows ≤ 8 → s.offset.toNat % 8 = 0 →
      s.bufLen.toNat < s.fmt.required (s.offset.toNat / 8) rows →
      exec (.decode rows) s = .next { s with
        err := 2#4, sticky := true
        errReq := BitVec.ofNat 32 (s.fmt.required (s.offset.toNat / 8) rows)
        errAvail := s.bufLen })

/-- R97: DECODE reads no byte of BUF outside its walk: with any other BUF that agrees on the walked bytes the
result is the same. -/
def Obligations.DecodeReadsOnlyWalkedBytes : Prop :=
  ∀ (s t : State) (rows : Nat) (buf : Memory),
    (∀ a ∈ s.fmt.walk (s.offset.toNat / 8) rows, ({ s with buf := buf } : State).bufAt a = s.bufAt a) →
    exec (.decode rows) s = .next t →
    exec (.decode rows) { s with buf := buf } = .next { t with buf := buf }

/-- R94, R86: with stride -1 every decoded row equals row 0. -/
def Obligations.NegativeStrideRepeatsRowZero : Prop :=
  ∀ (s t : State) (rows r c : Nat), s.Inv → s.fmt.st = -1 →
    exec (.decode rows) s = .next t → t.err = 0#4 → r < rows → c < 8 →
    t.pixAt (r * 8 + c) = t.pixAt c

/-- R140: after a completed DECODE of fewer than 8 rows, the entries from rows*8 on hold their earlier values,
PIX_LEN is rows*8, below 64, and ENCODE faults with InvalidInput, ERR_REQ = 64 and ERR_AVAIL = rows*8, and
changes nothing else. -/
def Obligations.PartialDecodeBlocksEncode : Prop :=
  ∀ (s t : State) (rows : Nat), s.Inv → exec (.decode rows) s = .next t → t.err = 0#4 → rows < 8 →
    (∀ j, rows * 8 ≤ j → t.pixAt j = s.pixAt j) ∧ t.pixLen.toNat = rows * 8 ∧ t.pixLen.toNat < 64 ∧
    exec .encode t = .next { t with
      err := 3#4, sticky := true, errReq := 64#32, errAvail := BitVec.ofNat 32 (rows * 8) }

/-! ### ENCODE and ENCZ -/

/-- R85, R88, R103, R105 to R107: when FMT is latched, OFFSET is a multiple of 8, PIX_LEN is 64 and the buffer
is long enough, ENCODE completes; the byte at OFFSET/8 + r*pitch + b is pack(r, b) for st >= 0, and
pack(7, b) for st = -1; every byte outside the walk and all other state are unchanged. -/
def Obligations.EncodePacksTheTile : Prop :=
  ∀ s : State, s.Inv → s.fmt.valid = true → s.offset.toNat % 8 = 0 → s.pixLen.toNat = 64 →
    s.fmt.required (s.offset.toNat / 8) 8 ≤ s.bufLen.toNat →
    ∃ t, exec .encode s = .next t ∧
      t = { s with err := 0#4, buf := t.buf } ∧
      (0 ≤ s.fmt.st → ∀ r b, r < 8 → b < s.fmt.bpr →
        t.bufAt (s.offset.toNat / 8 + r * s.fmt.pitch + b) = s.fmt.pack s.pixAt r b) ∧
      (s.fmt.st = -1 → ∀ b, b < s.fmt.bpr →
        t.bufAt (s.offset.toNat / 8 + b) = s.fmt.pack s.pixAt 7 b) ∧
      (∀ a, (∀ r b, r < 8 → b < s.fmt.bpr → a ≠ s.offset.toNat / 8 + r * s.fmt.pitch + b) →
        t.bufAt a = s.bufAt a) ∧
      (∀ j, t.pixAt j = s.pixAt j)

/-- R87, R92, R104, R117 to R119: ENCODE's faults with a format, in their priority, and everything each
leaves: codes 5, 3 and 2. -/
def Obligations.EncodeFaultPriority : Prop :=
  ∀ s : State, s.fmt.valid = true →
    (s.offset.toNat % 8 ≠ 0 → exec .encode s = .next { s with err := 5#4, sticky := true }) ∧
    (s.offset.toNat % 8 = 0 → s.pixLen.toNat < 64 →
      exec .encode s = .next { s with
        err := 3#4, sticky := true, errReq := 64#32, errAvail := s.pixLen.setWidth 32 }) ∧
    (s.offset.toNat % 8 = 0 → 64 ≤ s.pixLen.toNat →
      s.bufLen.toNat < s.fmt.required (s.offset.toNat / 8) 8 →
      exec .encode s = .next { s with
        err := 2#4, sticky := true
        errReq := BitVec.ofNat 32 (s.fmt.required (s.offset.toNat / 8) 8)
        errAvail := s.bufLen })

/-- R108: when FMT is latched with stride -1 or 0 and PIX_LEN is 64, ENCZ completes; BUF_LEN is tileSize; for
st = 0 byte r*bpr + b is pack(r, b); for st = -1 byte b < bpr is pack(7, b) and bytes bpr to tileSize-1 are
0; bytes from tileSize on and all other state, OFFSET included, are unchanged. -/
def Obligations.EnczPacksAFreshBuffer : Prop :=
  ∀ s : State, s.Inv → s.fmt.valid = true → s.pixLen.toNat = 64 → (s.fmt.st = -1 ∨ s.fmt.st = 0) →
    ∃ t, exec .encz s = .next t ∧
      t = { s with err := 0#4, bufLen := BitVec.ofNat 32 s.fmt.tileSize, buf := t.buf } ∧
      (s.fmt.st = 0 → ∀ r b, r < 8 → b < s.fmt.bpr →
        t.bufAt (r * s.fmt.bpr + b) = s.fmt.pack s.pixAt r b) ∧
      (s.fmt.st = -1 → (∀ b, b < s.fmt.bpr → t.bufAt b = s.fmt.pack s.pixAt 7 b) ∧
        ∀ a, s.fmt.bpr ≤ a → a < s.fmt.tileSize → t.bufAt a = 0#8) ∧
      (∀ a, s.fmt.tileSize ≤ a → t.bufAt a = s.bufAt a) ∧
      (∀ j, t.pixAt j = s.pixAt j)

/-- R109: with a format and 64 pixels, ENCZ completes only for st in -1, 0; for st >= 1 it faults with
BufferTooShort, ERR_REQ = bpr * (7*st + 8) and ERR_AVAIL = tileSize. -/
def Obligations.EnczCompletesOnlyUpToStrideZero : Prop :=
  ∀ s : State, s.Inv → s.fmt.valid = true → s.pixLen.toNat = 64 →
    s.fmt.required 0 8 = max s.fmt.tileSize (7 * s.fmt.pitch + s.fmt.bpr) ∧
    ((s.fmt.required 0 8 : Int) = s.fmt.bpr * max 8 (7 * s.fmt.st + 8)) ∧
    (s.fmt.tileSize < s.fmt.required 0 8 ↔ 1 ≤ s.fmt.st) ∧
    ((∃ t, exec .encz s = .next t ∧ t.err = 0#4) ↔ (s.fmt.st = -1 ∨ s.fmt.st = 0)) ∧
    (1 ≤ s.fmt.st → exec .encz s = .next { s with
      err := 2#4, sticky := true
      errReq := BitVec.ofNat 32 (s.fmt.bpr * (7 * s.fmt.st.toNat + 8))
      errAvail := BitVec.ofNat 32 s.fmt.tileSize })

/-- R104, R119: ENCZ with a format and fewer than 64 pixels faults with InvalidInput, before its length check. -/
def Obligations.EnczNeedsSixtyFourPixels : Prop :=
  ∀ s : State, s.fmt.valid = true → s.pixLen.toNat < 64 →
    exec .encz s = .next { s with
      err := 3#4, sticky := true, errReq := 64#32, errAvail := s.pixLen.setWidth 32 }

/-- R87, R108: ENCZ reads neither OFFSET nor the old BUF_LEN. -/
def Obligations.EnczIgnoresOffsetAndBufLen : Prop :=
  ∀ (s t : State) (offset bufLen : Word), exec .encz s = .next t →
    exec .encz { s with offset := offset, bufLen := bufLen } =
      .next { t with offset := offset, bufLen := if t.err = 0#4 then t.bufLen else bufLen }

/-- R110: ENCODE and ENCZ depend only on the low bpp bits of each pixel: with any other PIX that agrees on
them the outcome and BUF are the same. -/
def Obligations.EncodersUseOnlyLowPixelBits : Prop :=
  ∀ (s t : State) (pix : Memory) (i : Instr), s.fmt.legal → (i = .encode ∨ i = .encz) →
    (∀ j, j < 64 → (({ s with pix := pix } : State).pixAt j).toNat % s.fmt.colors =
      (s.pixAt j).toNat % s.fmt.colors) →
    exec i s = .next t → exec i { s with pix := pix } = .next { t with pix := pix }

/-- R83: at 8 bits per pixel the two orderings give identical results. -/
def Obligations.EightBitPixelsIgnoreTheOrdering : Prop :=
  ∀ (s t : State) (ord : PixelOrdering) (i : Instr), s.fmt.bppNat = 8 →
    (i = .encode ∨ i = .encz ∨ ∃ rows, i = .decode rows) → exec i s = .next t →
    exec i { s with fmt := { s.fmt with ord := ord } } =
      .next { t with fmt := { t.fmt with ord := ord } }

/-! ### Round trips and repetition -/

/-- R111: pixels to bytes to pixels. With st >= 0, pixels in range and a long enough buffer, ENCODE then
DECODE 8 completes and returns every pixel; with st = -1 every decoded row equals row 7 of the input; with
st >= 1 the law does not hold through ENCZ, which faults. -/
def Obligations.PixelsSurviveEncodeThenDecode : Prop :=
  ∀ s : State, s.Inv → s.fmt.valid = true → s.offset.toNat % 8 = 0 → s.pixLen.toNat = 64 →
    s.fmt.required (s.offset.toNat / 8) 8 ≤ s.bufLen.toNat →
    (∀ j, j < 64 → (s.pixAt j).toNat < s.fmt.colors) →
    ∃ t u, exec .encode s = .next t ∧ t.err = 0#4 ∧ exec (.decode 8) t = .next u ∧ u.err = 0#4 ∧
      u.pixLen = 64#7 ∧
      (0 ≤ s.fmt.st → ∀ j, j < 64 → u.pixAt j = s.pixAt j) ∧
      (s.fmt.st = -1 → ∀ r c, r < 8 → c < 8 → u.pixAt (r * 8 + c) = s.pixAt (7 * 8 + c)) ∧
      (1 ≤ s.fmt.st → ∃ v, exec .encz s = .next v ∧ v.err = 2#4)

/-- R112: bytes to pixels to bytes. Where DECODE 8 completes, ENCODE after it completes and leaves every byte of
BUF unchanged, for every legal stride; with OFFSET = 0, ENCZ after it reproduces BUF[0, tileSize) for st = 0,
and only bytes 0 to bpr-1 for st = -1 (the others become 0). -/
def Obligations.BytesSurviveDecodeThenEncode : Prop :=
  ∀ s t : State, s.Inv → exec (.decode 8) s = .next t → t.err = 0#4 →
    (∃ u, exec .encode t = .next u ∧ u.err = 0#4 ∧ ∀ a, u.bufAt a = s.bufAt a) ∧
    (s.offset = 0#32 → s.fmt.st = 0 →
      ∃ u, exec .encz t = .next u ∧ u.err = 0#4 ∧ ∀ a, a < s.fmt.tileSize → u.bufAt a = s.bufAt a) ∧
    (s.offset = 0#32 → s.fmt.st = -1 →
      ∃ u, exec .encz t = .next u ∧ u.err = 0#4 ∧ (∀ a, a < s.fmt.bpr → u.bufAt a = s.bufAt a) ∧
        ∀ a, s.fmt.bpr ≤ a → a < s.fmt.tileSize → u.bufAt a = 0#8)

/-- R49: executing a command twice in a row leaves the same state as executing it once, for every command,
completing or faulting. -/
def Obligations.CommandsAreIdempotent : Prop :=
  ∀ (i : Instr) (s t : State), s.Inv → exec i s = .next t → exec i t = .next t

/-! ### Faults and frames over all commands -/

/-- R117, R120: a command that faults changes STATUS only, and ERR_REQ and ERR_AVAIL only for codes 2 and 3. -/
def Obligations.FaultChangesOnlyStatusFields : Prop :=
  ∀ (i : Instr) (s t : State), exec i s = .next t → t.err ≠ 0#4 →
    t = { s with err := t.err, sticky := true, errReq := t.errReq, errAvail := t.errAvail } ∧
    (t.err ≠ 2#4 → t.err ≠ 3#4 → t.errReq = s.errReq ∧ t.errAvail = s.errAvail)

/-- R16, R19, R22 to R26, R82: what each command may write: CONFIG only FMT, DECODE only PIX and PIX_LEN, ENCODE
only BUF, ENCZ only BUF and BUF_LEN, besides the fault report; no command writes OFFSET; a completed command
leaves STICKY, ERR_REQ and ERR_AVAIL alone. -/
def Obligations.CommandsWriteOnlyTheirOwnState : Prop :=
  ∀ (i : Instr) (s t : State), exec i s = .next t →
    t.offset = s.offset ∧ t.cfg = s.cfg ∧ t.draw = s.draw ∧ t.host = s.host ∧
    t.responses = s.responses ∧
    (t.err = 0#4 → t.sticky = s.sticky ∧ t.errReq = s.errReq ∧ t.errAvail = s.errAvail) ∧
    ((∀ nb no ns, i ≠ .config nb no ns) → t.fmt = s.fmt) ∧
    ((∀ rows, i ≠ .decode rows) → t.pixLen = s.pixLen ∧ ∀ j, t.pixAt j = s.pixAt j) ∧
    (i ≠ .encode → i ≠ .encz → ∀ a, t.bufAt a = s.bufAt a) ∧
    (i ≠ .encz → t.bufLen = s.bufLen)

/-- R118: the codes each command can report. -/
def Obligations.CommandsReportTheirOwnCodes : Prop :=
  ∀ (i : Instr) (s t : State), exec i s = .next t →
    match i with
    | .config _ _ _ => t.err ∈ [0#4, 1#4]
    | .decode _ => t.err ∈ [0#4, 2#4, 4#4, 5#4, 6#4]
    | .encode => t.err ∈ [0#4, 2#4, 3#4, 4#4, 5#4]
    | .encz => t.err ∈ [0#4, 2#4, 3#4, 4#4]

/-- R30, R121: no command reads STATUS, ERR_REQ or ERR_AVAIL: whatever they hold, the outcome is the same in
everything but STICKY, ERR_REQ and ERR_AVAIL. A fault never blocks a later command. -/
def Obligations.CommandsNeverReadStatus : Prop :=
  ∀ (i : Instr) (s t : State) (err : BitVec 4) (sticky : Bool) (errReq errAvail : Word),
    exec i s = .next t →
    ∃ u, exec i { s with err := err, sticky := sticky, errReq := errReq, errAvail := errAvail } = .next u ∧
      { u with sticky := t.sticky, errReq := t.errReq, errAvail := t.errAvail } = t

/-- R19: STICKY is cleared only by a host write to STATUS with bit 8 = 1, or by reset; and it is set only by a
CMD write whose command faults. -/
def Obligations.StickyIsClearedOnlyByHostOrReset : Prop :=
  ∀ (s t : State) (e : HostEvent) (rest : List HostEvent), s.host = e :: rest → step s = .next t →
    (s.sticky = true → t.sticky = false →
      (∃ w, e = .write 0x004#32 4 w ∧ w.getLsbD 8 = true) ∨ e = .reset ∨ ∃ w, e = .resetDuringCmd w) ∧
    (s.sticky = false → t.sticky = true → ∃ w, e = .write 0x000#32 4 w ∧ t.err ≠ 0#4)

/-! ### The host port -/

/-- R19, R20: the layout of STATUS and FMT as words, reserved bits 0. -/
def Obligations.StatusAndFmtLayout : Prop :=
  ∀ s : State,
    (s.readReg .status).toNat = (if s.sticky then 256 else 0) + s.err.toNat ∧
    (s.readReg .fmt).toNat = s.fmt.stride.toNat * 65536 + (if s.fmt.valid then 256 else 0) +
      (if s.fmt.ord = .reverseOrder then 16 else 0) + s.fmt.bpp.toNat

/-- R18, R21 to R27, R42: a 4-byte read of a register returns its current value with OKAY and changes nothing;
CMD reads 0. -/
def Obligations.RegisterReads : Prop :=
  ∀ (s : State) (r : Reg) (rest : List HostEvent), s.host = .read r.addr 4 :: rest →
    step s = .next { s with host := rest, responses := .read .okay (s.readReg r) :: s.responses } ∧
    s.readReg .cmd = 0#32 ∧ s.readReg .geom = s.fmt.geomWord ∧ s.readReg .offset = s.offset ∧
    s.readReg .bufLen = s.bufLen ∧ (s.readReg .pixLen).toNat = s.pixLen.toNat ∧
    s.readReg .errReq = s.errReq ∧ s.readReg .errAvail = s.errAvail ∧
    s.readReg .bufsz = BitVec.ofNat 32 s.cfg.bufSize

/-- R19, R22 to R24, R32, R42: the effect of a 4-byte write to every register but CMD. -/
def Obligations.RegisterWrites : Prop :=
  ∀ (s : State) (a w : Word) (rest : List HostEvent), s.host = .write a 4 w :: rest →
    let answered : State := { s with host := rest, responses := .write .okay :: s.responses }
    (a = 0x004#32 → step s = .next { answered with sticky := if w.getLsbD 8 then false else s.sticky }) ∧
    (a ∈ [0x008#32, 0x00C#32, 0x01C#32, 0x020#32, 0x024#32] → step s = .next answered) ∧
    (a = 0x010#32 → step s = .next { answered with offset := w }) ∧
    (a = 0x014#32 → step s = .next { answered with bufLen := BitVec.ofNat 32 (min w.toNat s.cfg.bufSize) }) ∧
    (a = 0x018#32 → step s = .next { answered with pixLen := BitVec.ofNat 7 (min w.toNat 64) })

/-- R40, R41, R122: a transaction that is not admitted gets SLVERR, changes no state and reads 0; an admitted
one gets OKAY. -/
def Obligations.RefusedTransactionsChangeNothing : Prop :=
  ∀ (s : State) (a d : Word) (n : Nat) (rest : List HostEvent), s.Inv →
    (¬ Admitted s.cfg.bufSize a.toNat n →
      (s.host = .read a n :: rest → step s = .next
        { s with host := rest, responses := .read .slverr 0#32 :: s.responses }) ∧
      (s.host = .write a n d :: rest → step s = .next
        { s with host := rest, responses := .write .slverr :: s.responses })) ∧
    (Admitted s.cfg.bufSize a.toNat n →
      (s.host = .read a n :: rest → ∃ v, step s = .next
        { s with host := rest, responses := .read .okay v :: s.responses }) ∧
      (s.host = .write a n d :: rest → ∃ t, step s = .next t ∧
        t.host = rest ∧ t.responses = .write .okay :: s.responses))

/-- R43, R44: the PIX window. A 1-byte access reads or sets PIX[j]; a 4-byte access covers PIX[j..j+3], lowest
address in bits [7:0]; PIX_LEN and everything else are unchanged. That bits [31:8] of a 1-byte read's data are
0 is the model's choice (log 6): the spec gives only the byte. -/
def Obligations.PixWindowAccess : Prop :=
  ∀ (s : State) (j : Nat) (d : Word) (rest : List HostEvent), j < 64 →
    let a : Word := BitVec.ofNat 32 (0x1000 + j)
    (s.host = .read a 1 :: rest → ∃ v, v.toNat = (s.pixAt j).toNat ∧
      step s = .next { s with host := rest, responses := .read .okay v :: s.responses }) ∧
    (s.host = .write a 1 d :: rest → ∃ t, step s = .next t ∧
      t = { s with pix := t.pix, host := rest, responses := .write .okay :: s.responses } ∧
      (t.pixAt j).toNat = d.toNat % 256 ∧ ∀ i, i ≠ j → t.pixAt i = s.pixAt i) ∧
    (j % 4 = 0 → s.host = .read a 4 :: rest → ∃ v,
      v.toNat = (s.pixAt j).toNat + 256 * (s.pixAt (j + 1)).toNat + 65536 * (s.pixAt (j + 2)).toNat +
        16777216 * (s.pixAt (j + 3)).toNat ∧
      step s = .next { s with host := rest, responses := .read .okay v :: s.responses }) ∧
    (j % 4 = 0 → s.host = .write a 4 d :: rest → ∃ t, step s = .next t ∧
      t = { s with pix := t.pix, host := rest, responses := .write .okay :: s.responses } ∧
      (t.pixAt j).toNat = d.toNat % 256 ∧ (t.pixAt (j + 1)).toNat = d.toNat / 256 % 256 ∧
      (t.pixAt (j + 2)).toNat = d.toNat / 65536 % 256 ∧ (t.pixAt (j + 3)).toNat = d.toNat / 16777216 ∧
      ∀ i, (i < j ∨ j + 3 < i) → t.pixAt i = s.pixAt i)

/-- R43, R45: the BUF window, as the PIX window; BUF_LEN and everything else are unchanged, and bytes at or
beyond BUF_LEN are reached as well. That bits [31:8] of a 1-byte read's data are 0 is the model's choice
(log 6): the spec gives only the byte. -/
def Obligations.BufWindowAccess : Prop :=
  ∀ (s : State) (j : Nat) (d : Word) (rest : List HostEvent), s.cfg.wf → j < s.cfg.bufSize →
    let a : Word := BitVec.ofNat 32 (0x80000000 + j)
    (s.host = .read a 1 :: rest → ∃ v, v.toNat = (s.bufAt j).toNat ∧
      step s = .next { s with host := rest, responses := .read .okay v :: s.responses }) ∧
    (s.host = .write a 1 d :: rest → ∃ t, step s = .next t ∧
      t = { s with buf := t.buf, host := rest, responses := .write .okay :: s.responses } ∧
      (t.bufAt j).toNat = d.toNat % 256 ∧ ∀ i, i ≠ j → t.bufAt i = s.bufAt i) ∧
    (j % 4 = 0 → j + 3 < s.cfg.bufSize → s.host = .read a 4 :: rest → ∃ v,
      v.toNat = (s.bufAt j).toNat + 256 * (s.bufAt (j + 1)).toNat + 65536 * (s.bufAt (j + 2)).toNat +
        16777216 * (s.bufAt (j + 3)).toNat ∧
      step s = .next { s with host := rest, responses := .read .okay v :: s.responses }) ∧
    (j % 4 = 0 → j + 3 < s.cfg.bufSize → s.host = .write a 4 d :: rest → ∃ t, step s = .next t ∧
      t = { s with buf := t.buf, host := rest, responses := .write .okay :: s.responses } ∧
      (t.bufAt j).toNat = d.toNat % 256 ∧ (t.bufAt (j + 1)).toNat = d.toNat / 256 % 256 ∧
      (t.bufAt (j + 2)).toNat = d.toNat / 65536 % 256 ∧ (t.bufAt (j + 3)).toNat = d.toNat / 16777216 ∧
      ∀ i, (i < j ∨ j + 3 < i) → t.bufAt i = s.bufAt i)

/-- R27, R51, R135: one event is performed at a time, in order; every transaction is answered once and a reset
not at all; BUF_SIZE never changes. The list of events (log 5), the record of the answers (log 6), the cut CMD
write as an event of its own (log 8) and the counter draw, kept by a transaction and advanced by 1 at a reset
(log 4), are the model's own. -/
def Obligations.EventsArePerformedInOrder : Prop :=
  ∀ (s t : State) (e : HostEvent) (rest : List HostEvent), s.host = e :: rest → step s = .next t →
    t.cfg = s.cfg ∧ t.host = rest ∧
    match e with
    | .read _ _ => ∃ r v, t.responses = .read r v :: s.responses ∧ t.draw = s.draw
    | .write _ _ _ => ∃ r, t.responses = .write r :: s.responses ∧ t.draw = s.draw
    | .reset => t.responses = s.responses ∧ t.draw = s.draw + 1
    | .resetDuringCmd _ => t.responses = s.responses ∧ t.draw = s.draw + 1
end

