-- ==== Sys2Proof/Laws/State.lean ====
section
/-! SUPPORT. One lemma per field per update of the state, and the accessors under the updates that do not
touch what they read. -/

namespace Sys2Proof.Machine

open Sys2Proof

variable (s : State)

/-! `raise` -/

@[simp] theorem State.raise_err (f : CmdFault) : (s.raise f).err = f.code := rfl
@[simp] theorem State.raise_sticky (f : CmdFault) : (s.raise f).sticky = true := rfl
@[simp] theorem State.raise_fmt (f : CmdFault) : (s.raise f).fmt = s.fmt := rfl
@[simp] theorem State.raise_offset (f : CmdFault) : (s.raise f).offset = s.offset := rfl
@[simp] theorem State.raise_bufLen (f : CmdFault) : (s.raise f).bufLen = s.bufLen := rfl
@[simp] theorem State.raise_pixLen (f : CmdFault) : (s.raise f).pixLen = s.pixLen := rfl
@[simp] theorem State.raise_pix (f : CmdFault) : (s.raise f).pix = s.pix := rfl
@[simp] theorem State.raise_buf (f : CmdFault) : (s.raise f).buf = s.buf := rfl
@[simp] theorem State.raise_cfg (f : CmdFault) : (s.raise f).cfg = s.cfg := rfl
@[simp] theorem State.raise_draw (f : CmdFault) : (s.raise f).draw = s.draw := rfl
@[simp] theorem State.raise_host (f : CmdFault) : (s.raise f).host = s.host := rfl
@[simp] theorem State.raise_responses (f : CmdFault) : (s.raise f).responses = s.responses := rfl

/-! `complete` -/

@[simp] theorem State.complete_err : (s.complete).err = 0#4 := rfl
@[simp] theorem State.complete_sticky : (s.complete).sticky = s.sticky := rfl
@[simp] theorem State.complete_fmt : (s.complete).fmt = s.fmt := rfl
@[simp] theorem State.complete_offset : (s.complete).offset = s.offset := rfl
@[simp] theorem State.complete_bufLen : (s.complete).bufLen = s.bufLen := rfl
@[simp] theorem State.complete_pixLen : (s.complete).pixLen = s.pixLen := rfl
@[simp] theorem State.complete_errReq : (s.complete).errReq = s.errReq := rfl
@[simp] theorem State.complete_errAvail : (s.complete).errAvail = s.errAvail := rfl
@[simp] theorem State.complete_pix : (s.complete).pix = s.pix := rfl
@[simp] theorem State.complete_buf : (s.complete).buf = s.buf := rfl
@[simp] theorem State.complete_cfg : (s.complete).cfg = s.cfg := rfl
@[simp] theorem State.complete_draw : (s.complete).draw = s.draw := rfl
@[simp] theorem State.complete_host : (s.complete).host = s.host := rfl
@[simp] theorem State.complete_responses : (s.complete).responses = s.responses := rfl

/-! `latch` -/

@[simp] theorem State.latch_err (f : Fmt) : (s.latch f).err = s.err := rfl
@[simp] theorem State.latch_sticky (f : Fmt) : (s.latch f).sticky = s.sticky := rfl
@[simp] theorem State.latch_fmt (f : Fmt) : (s.latch f).fmt = f := rfl
@[simp] theorem State.latch_offset (f : Fmt) : (s.latch f).offset = s.offset := rfl
@[simp] theorem State.latch_bufLen (f : Fmt) : (s.latch f).bufLen = s.bufLen := rfl
@[simp] theorem State.latch_pixLen (f : Fmt) : (s.latch f).pixLen = s.pixLen := rfl
@[simp] theorem State.latch_errReq (f : Fmt) : (s.latch f).errReq = s.errReq := rfl
@[simp] theorem State.latch_errAvail (f : Fmt) : (s.latch f).errAvail = s.errAvail := rfl
@[simp] theorem State.latch_pix (f : Fmt) : (s.latch f).pix = s.pix := rfl
@[simp] theorem State.latch_buf (f : Fmt) : (s.latch f).buf = s.buf := rfl
@[simp] theorem State.latch_cfg (f : Fmt) : (s.latch f).cfg = s.cfg := rfl
@[simp] theorem State.latch_draw (f : Fmt) : (s.latch f).draw = s.draw := rfl
@[simp] theorem State.latch_host (f : Fmt) : (s.latch f).host = s.host := rfl
@[simp] theorem State.latch_responses (f : Fmt) : (s.latch f).responses = s.responses := rfl

/-! `setPixels` -/

@[simp] theorem State.setPixels_err (m : Memory) (n : Nat) : (s.setPixels m n).err = s.err := rfl
@[simp] theorem State.setPixels_sticky (m : Memory) (n : Nat) : (s.setPixels m n).sticky = s.sticky := rfl
@[simp] theorem State.setPixels_fmt (m : Memory) (n : Nat) : (s.setPixels m n).fmt = s.fmt := rfl
@[simp] theorem State.setPixels_offset (m : Memory) (n : Nat) : (s.setPixels m n).offset = s.offset := rfl
@[simp] theorem State.setPixels_bufLen (m : Memory) (n : Nat) : (s.setPixels m n).bufLen = s.bufLen := rfl
@[simp] theorem State.setPixels_pixLen (m : Memory) (n : Nat) : (s.setPixels m n).pixLen = BitVec.ofNat 7 n := rfl
@[simp] theorem State.setPixels_errReq (m : Memory) (n : Nat) : (s.setPixels m n).errReq = s.errReq := rfl
@[simp] theorem State.setPixels_errAvail (m : Memory) (n : Nat) : (s.setPixels m n).errAvail = s.errAvail := rfl
@[simp] theorem State.setPixels_pix (m : Memory) (n : Nat) : (s.setPixels m n).pix = m := rfl
@[simp] theorem State.setPixels_buf (m : Memory) (n : Nat) : (s.setPixels m n).buf = s.buf := rfl
@[simp] theorem State.setPixels_cfg (m : Memory) (n : Nat) : (s.setPixels m n).cfg = s.cfg := rfl
@[simp] theorem State.setPixels_draw (m : Memory) (n : Nat) : (s.setPixels m n).draw = s.draw := rfl
@[simp] theorem State.setPixels_host (m : Memory) (n : Nat) : (s.setPixels m n).host = s.host := rfl
@[simp] theorem State.setPixels_responses (m : Memory) (n : Nat) : (s.setPixels m n).responses = s.responses := rfl

/-! `setPix` -/

@[simp] theorem State.setPix_err (m : Memory) : (s.setPix m).err = s.err := rfl
@[simp] theorem State.setPix_sticky (m : Memory) : (s.setPix m).sticky = s.sticky := rfl
@[simp] theorem State.setPix_fmt (m : Memory) : (s.setPix m).fmt = s.fmt := rfl
@[simp] theorem State.setPix_offset (m : Memory) : (s.setPix m).offset = s.offset := rfl
@[simp] theorem State.setPix_bufLen (m : Memory) : (s.setPix m).bufLen = s.bufLen := rfl
@[simp] theorem State.setPix_pixLen (m : Memory) : (s.setPix m).pixLen = s.pixLen := rfl
@[simp] theorem State.setPix_errReq (m : Memory) : (s.setPix m).errReq = s.errReq := rfl
@[simp] theorem State.setPix_errAvail (m : Memory) : (s.setPix m).errAvail = s.errAvail := rfl
@[simp] theorem State.setPix_pix (m : Memory) : (s.setPix m).pix = m := rfl
@[simp] theorem State.setPix_buf (m : Memory) : (s.setPix m).buf = s.buf := rfl
@[simp] theorem State.setPix_cfg (m : Memory) : (s.setPix m).cfg = s.cfg := rfl
@[simp] theorem State.setPix_draw (m : Memory) : (s.setPix m).draw = s.draw := rfl
@[simp] theorem State.setPix_host (m : Memory) : (s.setPix m).host = s.host := rfl
@[simp] theorem State.setPix_responses (m : Memory) : (s.setPix m).responses = s.responses := rfl

/-! `setBuf` -/

@[simp] theorem State.setBuf_err (m : Memory) : (s.setBuf m).err = s.err := rfl
@[simp] theorem State.setBuf_sticky (m : Memory) : (s.setBuf m).sticky = s.sticky := rfl
@[simp] theorem State.setBuf_fmt (m : Memory) : (s.setBuf m).fmt = s.fmt := rfl
@[simp] theorem State.setBuf_offset (m : Memory) : (s.setBuf m).offset = s.offset := rfl
@[simp] theorem State.setBuf_bufLen (m : Memory) : (s.setBuf m).bufLen = s.bufLen := rfl
@[simp] theorem State.setBuf_pixLen (m : Memory) : (s.setBuf m).pixLen = s.pixLen := rfl
@[simp] theorem State.setBuf_errReq (m : Memory) : (s.setBuf m).errReq = s.errReq := rfl
@[simp] theorem State.setBuf_errAvail (m : Memory) : (s.setBuf m).errAvail = s.errAvail := rfl
@[simp] theorem State.setBuf_pix (m : Memory) : (s.setBuf m).pix = s.pix := rfl
@[simp] theorem State.setBuf_buf (m : Memory) : (s.setBuf m).buf = m := rfl
@[simp] theorem State.setBuf_cfg (m : Memory) : (s.setBuf m).cfg = s.cfg := rfl
@[simp] theorem State.setBuf_draw (m : Memory) : (s.setBuf m).draw = s.draw := rfl
@[simp] theorem State.setBuf_host (m : Memory) : (s.setBuf m).host = s.host := rfl
@[simp] theorem State.setBuf_responses (m : Memory) : (s.setBuf m).responses = s.responses := rfl

/-! `setBufLen` -/

@[simp] theorem State.setBufLen_err (n : Nat) : (s.setBufLen n).err = s.err := rfl
@[simp] theorem State.setBufLen_sticky (n : Nat) : (s.setBufLen n).sticky = s.sticky := rfl
@[simp] theorem State.setBufLen_fmt (n : Nat) : (s.setBufLen n).fmt = s.fmt := rfl
@[simp] theorem State.setBufLen_offset (n : Nat) : (s.setBufLen n).offset = s.offset := rfl
@[simp] theorem State.setBufLen_bufLen (n : Nat) : (s.setBufLen n).bufLen = BitVec.ofNat 32 n := rfl
@[simp] theorem State.setBufLen_pixLen (n : Nat) : (s.setBufLen n).pixLen = s.pixLen := rfl
@[simp] theorem State.setBufLen_errReq (n : Nat) : (s.setBufLen n).errReq = s.errReq := rfl
@[simp] theorem State.setBufLen_errAvail (n : Nat) : (s.setBufLen n).errAvail = s.errAvail := rfl
@[simp] theorem State.setBufLen_pix (n : Nat) : (s.setBufLen n).pix = s.pix := rfl
@[simp] theorem State.setBufLen_buf (n : Nat) : (s.setBufLen n).buf = s.buf := rfl
@[simp] theorem State.setBufLen_cfg (n : Nat) : (s.setBufLen n).cfg = s.cfg := rfl
@[simp] theorem State.setBufLen_draw (n : Nat) : (s.setBufLen n).draw = s.draw := rfl
@[simp] theorem State.setBufLen_host (n : Nat) : (s.setBufLen n).host = s.host := rfl
@[simp] theorem State.setBufLen_responses (n : Nat) : (s.setBufLen n).responses = s.responses := rfl

/-! `writeStatus` -/

@[simp] theorem State.writeStatus_err (w : Word) : (s.writeStatus w).err = s.err := rfl
@[simp] theorem State.writeStatus_sticky (w : Word) : (s.writeStatus w).sticky = (s.sticky && !w.getLsbD 8) := rfl
@[simp] theorem State.writeStatus_fmt (w : Word) : (s.writeStatus w).fmt = s.fmt := rfl
@[simp] theorem State.writeStatus_offset (w : Word) : (s.writeStatus w).offset = s.offset := rfl
@[simp] theorem State.writeStatus_bufLen (w : Word) : (s.writeStatus w).bufLen = s.bufLen := rfl
@[simp] theorem State.writeStatus_pixLen (w : Word) : (s.writeStatus w).pixLen = s.pixLen := rfl
@[simp] theorem State.writeStatus_errReq (w : Word) : (s.writeStatus w).errReq = s.errReq := rfl
@[simp] theorem State.writeStatus_errAvail (w : Word) : (s.writeStatus w).errAvail = s.errAvail := rfl
@[simp] theorem State.writeStatus_pix (w : Word) : (s.writeStatus w).pix = s.pix := rfl
@[simp] theorem State.writeStatus_buf (w : Word) : (s.writeStatus w).buf = s.buf := rfl
@[simp] theorem State.writeStatus_cfg (w : Word) : (s.writeStatus w).cfg = s.cfg := rfl
@[simp] theorem State.writeStatus_draw (w : Word) : (s.writeStatus w).draw = s.draw := rfl
@[simp] theorem State.writeStatus_host (w : Word) : (s.writeStatus w).host = s.host := rfl
@[simp] theorem State.writeStatus_responses (w : Word) : (s.writeStatus w).responses = s.responses := rfl

/-! `writeOffset` -/

@[simp] theorem State.writeOffset_err (w : Word) : (s.writeOffset w).err = s.err := rfl
@[simp] theorem State.writeOffset_sticky (w : Word) : (s.writeOffset w).sticky = s.sticky := rfl
@[simp] theorem State.writeOffset_fmt (w : Word) : (s.writeOffset w).fmt = s.fmt := rfl
@[simp] theorem State.writeOffset_offset (w : Word) : (s.writeOffset w).offset = w := rfl
@[simp] theorem State.writeOffset_bufLen (w : Word) : (s.writeOffset w).bufLen = s.bufLen := rfl
@[simp] theorem State.writeOffset_pixLen (w : Word) : (s.writeOffset w).pixLen = s.pixLen := rfl
@[simp] theorem State.writeOffset_errReq (w : Word) : (s.writeOffset w).errReq = s.errReq := rfl
@[simp] theorem State.writeOffset_errAvail (w : Word) : (s.writeOffset w).errAvail = s.errAvail := rfl
@[simp] theorem State.writeOffset_pix (w : Word) : (s.writeOffset w).pix = s.pix := rfl
@[simp] theorem State.writeOffset_buf (w : Word) : (s.writeOffset w).buf = s.buf := rfl
@[simp] theorem State.writeOffset_cfg (w : Word) : (s.writeOffset w).cfg = s.cfg := rfl
@[simp] theorem State.writeOffset_draw (w : Word) : (s.writeOffset w).draw = s.draw := rfl
@[simp] theorem State.writeOffset_host (w : Word) : (s.writeOffset w).host = s.host := rfl
@[simp] theorem State.writeOffset_responses (w : Word) : (s.writeOffset w).responses = s.responses := rfl

/-! `writePixLen` -/

@[simp] theorem State.writePixLen_err (w : Word) : (s.writePixLen w).err = s.err := rfl
@[simp] theorem State.writePixLen_sticky (w : Word) : (s.writePixLen w).sticky = s.sticky := rfl
@[simp] theorem State.writePixLen_fmt (w : Word) : (s.writePixLen w).fmt = s.fmt := rfl
@[simp] theorem State.writePixLen_offset (w : Word) : (s.writePixLen w).offset = s.offset := rfl
@[simp] theorem State.writePixLen_bufLen (w : Word) : (s.writePixLen w).bufLen = s.bufLen := rfl
@[simp] theorem State.writePixLen_pixLen (w : Word) : (s.writePixLen w).pixLen = BitVec.ofNat 7 (min w.toNat 64) := rfl
@[simp] theorem State.writePixLen_errReq (w : Word) : (s.writePixLen w).errReq = s.errReq := rfl
@[simp] theorem State.writePixLen_errAvail (w : Word) : (s.writePixLen w).errAvail = s.errAvail := rfl
@[simp] theorem State.writePixLen_pix (w : Word) : (s.writePixLen w).pix = s.pix := rfl
@[simp] theorem State.writePixLen_buf (w : Word) : (s.writePixLen w).buf = s.buf := rfl
@[simp] theorem State.writePixLen_cfg (w : Word) : (s.writePixLen w).cfg = s.cfg := rfl
@[simp] theorem State.writePixLen_draw (w : Word) : (s.writePixLen w).draw = s.draw := rfl
@[simp] theorem State.writePixLen_host (w : Word) : (s.writePixLen w).host = s.host := rfl
@[simp] theorem State.writePixLen_responses (w : Word) : (s.writePixLen w).responses = s.responses := rfl

/-! `respond` -/

@[simp] theorem State.respond_err (r : Response) : (s.respond r).err = s.err := rfl
@[simp] theorem State.respond_sticky (r : Response) : (s.respond r).sticky = s.sticky := rfl
@[simp] theorem State.respond_fmt (r : Response) : (s.respond r).fmt = s.fmt := rfl
@[simp] theorem State.respond_offset (r : Response) : (s.respond r).offset = s.offset := rfl
@[simp] theorem State.respond_bufLen (r : Response) : (s.respond r).bufLen = s.bufLen := rfl
@[simp] theorem State.respond_pixLen (r : Response) : (s.respond r).pixLen = s.pixLen := rfl
@[simp] theorem State.respond_errReq (r : Response) : (s.respond r).errReq = s.errReq := rfl
@[simp] theorem State.respond_errAvail (r : Response) : (s.respond r).errAvail = s.errAvail := rfl
@[simp] theorem State.respond_pix (r : Response) : (s.respond r).pix = s.pix := rfl
@[simp] theorem State.respond_buf (r : Response) : (s.respond r).buf = s.buf := rfl
@[simp] theorem State.respond_cfg (r : Response) : (s.respond r).cfg = s.cfg := rfl
@[simp] theorem State.respond_draw (r : Response) : (s.respond r).draw = s.draw := rfl
@[simp] theorem State.respond_host (r : Response) : (s.respond r).host = s.host := rfl
@[simp] theorem State.respond_responses (r : Response) : (s.respond r).responses = r :: s.responses := rfl

/-! `takeEvent` -/

@[simp] theorem State.takeEvent_err (l : List HostEvent) : (s.takeEvent l).err = s.err := rfl
@[simp] theorem State.takeEvent_sticky (l : List HostEvent) : (s.takeEvent l).sticky = s.sticky := rfl
@[simp] theorem State.takeEvent_fmt (l : List HostEvent) : (s.takeEvent l).fmt = s.fmt := rfl
@[simp] theorem State.takeEvent_offset (l : List HostEvent) : (s.takeEvent l).offset = s.offset := rfl
@[simp] theorem State.takeEvent_bufLen (l : List HostEvent) : (s.takeEvent l).bufLen = s.bufLen := rfl
@[simp] theorem State.takeEvent_pixLen (l : List HostEvent) : (s.takeEvent l).pixLen = s.pixLen := rfl
@[simp] theorem State.takeEvent_errReq (l : List HostEvent) : (s.takeEvent l).errReq = s.errReq := rfl
@[simp] theorem State.takeEvent_errAvail (l : List HostEvent) : (s.takeEvent l).errAvail = s.errAvail := rfl
@[simp] theorem State.takeEvent_pix (l : List HostEvent) : (s.takeEvent l).pix = s.pix := rfl
@[simp] theorem State.takeEvent_buf (l : List HostEvent) : (s.takeEvent l).buf = s.buf := rfl
@[simp] theorem State.takeEvent_cfg (l : List HostEvent) : (s.takeEvent l).cfg = s.cfg := rfl
@[simp] theorem State.takeEvent_draw (l : List HostEvent) : (s.takeEvent l).draw = s.draw := rfl
@[simp] theorem State.takeEvent_host (l : List HostEvent) : (s.takeEvent l).host = l := rfl
@[simp] theorem State.takeEvent_responses (l : List HostEvent) : (s.takeEvent l).responses = s.responses := rfl

/-! `afterReset` -/

@[simp] theorem State.afterReset_err : (s.afterReset).err = 0#4 := rfl
@[simp] theorem State.afterReset_sticky : (s.afterReset).sticky = false := rfl
@[simp] theorem State.afterReset_fmt : (s.afterReset).fmt = Fmt.reset := rfl
@[simp] theorem State.afterReset_offset : (s.afterReset).offset = 0#32 := rfl
@[simp] theorem State.afterReset_bufLen : (s.afterReset).bufLen = 0#32 := rfl
@[simp] theorem State.afterReset_pixLen : (s.afterReset).pixLen = 0#7 := rfl
@[simp] theorem State.afterReset_errReq : (s.afterReset).errReq = 0#32 := rfl
@[simp] theorem State.afterReset_errAvail : (s.afterReset).errAvail = 0#32 := rfl
@[simp] theorem State.afterReset_pix : (s.afterReset).pix = [] := rfl
@[simp] theorem State.afterReset_buf : (s.afterReset).buf = [] := rfl
@[simp] theorem State.afterReset_cfg : (s.afterReset).cfg = s.cfg := rfl
@[simp] theorem State.afterReset_draw : (s.afterReset).draw = s.draw + 1 := rfl
@[simp] theorem State.afterReset_host : (s.afterReset).host = s.host := rfl
@[simp] theorem State.afterReset_responses : (s.afterReset).responses = s.responses := rfl

/-! The lengths `raise` records (R117). -/

@[simp] theorem State.raise_invalidFormat_errReq : (s.raise .invalidFormat).errReq = s.errReq := rfl
@[simp] theorem State.raise_invalidFormat_errAvail : (s.raise .invalidFormat).errAvail = s.errAvail := rfl
@[simp] theorem State.raise_noFormat_errReq : (s.raise .noFormat).errReq = s.errReq := rfl
@[simp] theorem State.raise_noFormat_errAvail : (s.raise .noFormat).errAvail = s.errAvail := rfl
@[simp] theorem State.raise_unalignedOffset_errReq : (s.raise .unalignedOffset).errReq = s.errReq := rfl
@[simp] theorem State.raise_unalignedOffset_errAvail : (s.raise .unalignedOffset).errAvail = s.errAvail := rfl
@[simp] theorem State.raise_invalidRowCount_errReq : (s.raise .invalidRowCount).errReq = s.errReq := rfl
@[simp] theorem State.raise_invalidRowCount_errAvail : (s.raise .invalidRowCount).errAvail = s.errAvail := rfl
@[simp] theorem State.raise_illegalCommand_errReq : (s.raise .illegalCommand).errReq = s.errReq := rfl
@[simp] theorem State.raise_illegalCommand_errAvail : (s.raise .illegalCommand).errAvail = s.errAvail := rfl
@[simp] theorem State.raise_bufferTooShort_errReq (m n : Nat) : (s.raise (.bufferTooShort m n)).errReq = BitVec.ofNat 32 m := rfl
@[simp] theorem State.raise_bufferTooShort_errAvail (m n : Nat) : (s.raise (.bufferTooShort m n)).errAvail = BitVec.ofNat 32 n := rfl
@[simp] theorem State.raise_invalidInput_errReq (m n : Nat) : (s.raise (.invalidInput m n)).errReq = BitVec.ofNat 32 m := rfl
@[simp] theorem State.raise_invalidInput_errAvail (m n : Nat) : (s.raise (.invalidInput m n)).errAvail = BitVec.ofNat 32 n := rfl

/-! Reads of BUF and PIX, and the operands taken from OFFSET, under the updates that leave them alone. -/

@[simp] theorem State.raise_bufAt (f : CmdFault) : (s.raise f).bufAt = s.bufAt := rfl
@[simp] theorem State.raise_pixAt (f : CmdFault) : (s.raise f).pixAt = s.pixAt := rfl
@[simp] theorem State.raise_base (f : CmdFault) : (s.raise f).base = s.base := rfl
@[simp] theorem State.raise_misaligned (f : CmdFault) : (s.raise f).misaligned = s.misaligned := rfl
@[simp] theorem State.complete_bufAt : (s.complete).bufAt = s.bufAt := rfl
@[simp] theorem State.complete_pixAt : (s.complete).pixAt = s.pixAt := rfl
@[simp] theorem State.complete_base : (s.complete).base = s.base := rfl
@[simp] theorem State.complete_misaligned : (s.complete).misaligned = s.misaligned := rfl
@[simp] theorem State.latch_bufAt (f : Fmt) : (s.latch f).bufAt = s.bufAt := rfl
@[simp] theorem State.latch_pixAt (f : Fmt) : (s.latch f).pixAt = s.pixAt := rfl
@[simp] theorem State.latch_base (f : Fmt) : (s.latch f).base = s.base := rfl
@[simp] theorem State.latch_misaligned (f : Fmt) : (s.latch f).misaligned = s.misaligned := rfl
@[simp] theorem State.setPixels_bufAt (m : Memory) (n : Nat) : (s.setPixels m n).bufAt = s.bufAt := rfl
@[simp] theorem State.setPixels_base (m : Memory) (n : Nat) : (s.setPixels m n).base = s.base := rfl
@[simp] theorem State.setPixels_misaligned (m : Memory) (n : Nat) : (s.setPixels m n).misaligned = s.misaligned := rfl
@[simp] theorem State.setPix_bufAt (m : Memory) : (s.setPix m).bufAt = s.bufAt := rfl
@[simp] theorem State.setPix_base (m : Memory) : (s.setPix m).base = s.base := rfl
@[simp] theorem State.setPix_misaligned (m : Memory) : (s.setPix m).misaligned = s.misaligned := rfl
@[simp] theorem State.setBuf_pixAt (m : Memory) : (s.setBuf m).pixAt = s.pixAt := rfl
@[simp] theorem State.setBuf_base (m : Memory) : (s.setBuf m).base = s.base := rfl
@[simp] theorem State.setBuf_misaligned (m : Memory) : (s.setBuf m).misaligned = s.misaligned := rfl
@[simp] theorem State.setBufLen_bufAt (n : Nat) : (s.setBufLen n).bufAt = s.bufAt := rfl
@[simp] theorem State.setBufLen_pixAt (n : Nat) : (s.setBufLen n).pixAt = s.pixAt := rfl
@[simp] theorem State.setBufLen_base (n : Nat) : (s.setBufLen n).base = s.base := rfl
@[simp] theorem State.setBufLen_misaligned (n : Nat) : (s.setBufLen n).misaligned = s.misaligned := rfl
@[simp] theorem State.writeStatus_bufAt (w : Word) : (s.writeStatus w).bufAt = s.bufAt := rfl
@[simp] theorem State.writeStatus_pixAt (w : Word) : (s.writeStatus w).pixAt = s.pixAt := rfl
@[simp] theorem State.writeStatus_base (w : Word) : (s.writeStatus w).base = s.base := rfl
@[simp] theorem State.writeStatus_misaligned (w : Word) : (s.writeStatus w).misaligned = s.misaligned := rfl
@[simp] theorem State.writeOffset_bufAt (w : Word) : (s.writeOffset w).bufAt = s.bufAt := rfl
@[simp] theorem State.writeOffset_pixAt (w : Word) : (s.writeOffset w).pixAt = s.pixAt := rfl
@[simp] theorem State.writePixLen_bufAt (w : Word) : (s.writePixLen w).bufAt = s.bufAt := rfl
@[simp] theorem State.writePixLen_pixAt (w : Word) : (s.writePixLen w).pixAt = s.pixAt := rfl
@[simp] theorem State.writePixLen_base (w : Word) : (s.writePixLen w).base = s.base := rfl
@[simp] theorem State.writePixLen_misaligned (w : Word) : (s.writePixLen w).misaligned = s.misaligned := rfl
@[simp] theorem State.respond_bufAt (r : Response) : (s.respond r).bufAt = s.bufAt := rfl
@[simp] theorem State.respond_pixAt (r : Response) : (s.respond r).pixAt = s.pixAt := rfl
@[simp] theorem State.respond_base (r : Response) : (s.respond r).base = s.base := rfl
@[simp] theorem State.respond_misaligned (r : Response) : (s.respond r).misaligned = s.misaligned := rfl
@[simp] theorem State.takeEvent_bufAt (l : List HostEvent) : (s.takeEvent l).bufAt = s.bufAt := rfl
@[simp] theorem State.takeEvent_pixAt (l : List HostEvent) : (s.takeEvent l).pixAt = s.pixAt := rfl
@[simp] theorem State.takeEvent_base (l : List HostEvent) : (s.takeEvent l).base = s.base := rfl
@[simp] theorem State.takeEvent_misaligned (l : List HostEvent) : (s.takeEvent l).misaligned = s.misaligned := rfl

end Sys2Proof.Machine
end

