-- ==== Sys2Proof/Laws/Memory.lean ====
section
/-! SUPPORT. Byte memory: reads after writes, the canonical form, equal memories are equal data; and the
counted loop. -/

namespace Sys2Proof.Machine

open Sys2Proof

/-! ### Reads and writes -/

@[simp] theorem Memory.lookup_nil (a : Nat) : Memory.lookup [] a = none := rfl

/-- A read after a write: the value written there, and every other address as before. -/
@[simp] theorem Memory.lookup_write (m : Memory) (a b : Nat) (v : Byte) :
    Memory.lookup (Memory.write m a v) b = if b = a then some v else Memory.lookup m b := by
  induction m with
  | nil => simp [Memory.write, Memory.lookup]
  | cons c m ih =>
    obtain ⟨k, x⟩ := c
    unfold Memory.write
    split
    · simp [Memory.lookup]
    · split
      · subst_vars; by_cases h : b = k <;> simp [Memory.lookup, h]
      · by_cases h : b = k
        · subst h; simp [Memory.lookup]; omega
        · simp [Memory.lookup, h, ih]

theorem Memory.lookup_writeWord (m : Memory) (j b : Nat) (w : Word) :
    Memory.lookup (Memory.writeWord m j w) b =
      if b = j + 3 then some (field w 24 8)
      else if b = j + 2 then some (field w 16 8)
      else if b = j + 1 then some (field w 8 8)
      else if b = j then some (field w 0 8)
      else Memory.lookup m b := by
  simp [Memory.writeWord]

/-! ### The canonical form -/

@[simp] theorem Memory.wf_nil (size : Nat) : Memory.wf size [] := by simp [Memory.wf]

theorem Memory.mem_write {m : Memory} {a : Nat} {v : Byte} {c : Host.Cell}
    (h : c ∈ Memory.write m a v) : c = (a, v) ∨ c ∈ m := by
  induction m with
  | nil => simpa [Memory.write] using h
  | cons d m ih =>
    obtain ⟨k, x⟩ := d
    unfold Memory.write at h
    split at h
    · simpa using h
    · split at h
      · simp only [List.mem_cons] at h ⊢; tauto
      · simp only [List.mem_cons] at h ⊢
        rcases h with h | h
        · tauto
        · rcases ih h with h | h <;> tauto

/-- A write inside the memory keeps the canonical form. -/
theorem Memory.wf_write {size : Nat} {m : Memory} {a : Nat} {v : Byte}
    (hm : Memory.wf size m) (ha : a < size) : Memory.wf size (Memory.write m a v) := by
  obtain ⟨hp, hb⟩ := hm
  refine ⟨?_, fun c hc => ?_⟩
  · clear hb
    induction m with
    | nil => simp [Memory.write]
    | cons d m ih =>
      obtain ⟨k, x⟩ := d
      obtain ⟨hd, hp⟩ := List.pairwise_cons.1 hp
      unfold Memory.write
      split
      · rename_i hlt
        refine List.pairwise_cons.2 ⟨fun c hc => ?_, List.pairwise_cons.2 ⟨hd, hp⟩⟩
        rcases List.mem_cons.1 hc with rfl | hc
        · exact hlt
        · exact lt_trans hlt (hd c hc)
      · split
        · subst_vars; exact List.pairwise_cons.2 ⟨hd, hp⟩
        · refine List.pairwise_cons.2 ⟨fun c hc => ?_, ih hp⟩
          rcases Memory.mem_write hc with rfl | hc
          · simp only; omega
          · exact hd c hc
  · rcases Memory.mem_write hc with rfl | hc
    · exact ha
    · exact hb c hc

/-- A 4-byte write inside the memory keeps the canonical form. -/
theorem Memory.wf_writeWord {size : Nat} {m : Memory} {j : Nat} {w : Word}
    (hm : Memory.wf size m) (hj : j + 3 < size) : Memory.wf size (Memory.writeWord m j w) := by
  unfold Memory.writeWord
  exact Memory.wf_write (Memory.wf_write (Memory.wf_write (Memory.wf_write hm (by omega)) (by omega))
    (by omega)) hj

theorem Memory.lookup_eq_none_of_lt {m : Memory} {a : Nat} (h : ∀ c ∈ m, a < c.1) :
    Memory.lookup m a = none := by
  induction m with
  | nil => rfl
  | cons c m ih =>
    obtain ⟨k, x⟩ := c
    have hk : a < k := h (k, x) (by simp)
    have : a ≠ k := by omega
    simp only [Memory.lookup, if_neg this]
    exact ih fun c hc => h c (List.mem_cons_of_mem _ hc)

/-- Canonical memories that read the same everywhere are equal as data. -/
theorem Memory.ext_of_lookup {size : Nat} {m n : Memory} (hm : Memory.wf size m) (hn : Memory.wf size n)
    (h : ∀ a, Memory.lookup m a = Memory.lookup n a) : m = n := by
  replace hm := hm.1
  replace hn := hn.1
  induction m generalizing n with
  | nil =>
    cases n with
    | nil => rfl
    | cons c n => obtain ⟨k, x⟩ := c; simpa [Memory.lookup] using h k
  | cons c m ih =>
    obtain ⟨k, x⟩ := c
    obtain ⟨hc, hm⟩ := List.pairwise_cons.1 hm
    cases n with
    | nil => simpa [Memory.lookup] using h k
    | cons d n =>
      obtain ⟨l, y⟩ := d
      obtain ⟨hd, hn'⟩ := List.pairwise_cons.1 hn
      have hk : k = l := by
        rcases lt_trichotomy k l with hlt | he | hlt
        · have hnone : Memory.lookup ((l, y) :: n) k = none :=
            Memory.lookup_eq_none_of_lt fun e he => by
              rcases List.mem_cons.1 he with rfl | he
              · exact hlt
              · exact lt_trans hlt (hd e he)
          have := h k; rw [hnone] at this; simp [Memory.lookup] at this
        · exact he
        · have hnone : Memory.lookup ((k, x) :: m) l = none :=
            Memory.lookup_eq_none_of_lt fun e he => by
              rcases List.mem_cons.1 he with rfl | he
              · exact hlt
              · exact lt_trans hlt (hc e he)
          have := h l; rw [hnone] at this; simp [Memory.lookup] at this
      subst hk
      have hx : x = y := by simpa [Memory.lookup] using h k
      subst hx
      congr 1
      refine ih (fun a => ?_) hm hn'
      by_cases ha : a = k
      · subst ha
        rw [Memory.lookup_eq_none_of_lt hc, Memory.lookup_eq_none_of_lt hd]
      · simpa [Memory.lookup, ha] using h a

/-! ### The counted loop -/

@[simp] theorem forUp_zero {α : Type} (body : Nat → α → α) (a : α) : forUp 0 body a = a := rfl

@[simp] theorem forUp_succ {α : Type} (n : Nat) (body : Nat → α → α) (a : α) :
    forUp (n + 1) body a = body n (forUp n body a) := rfl

/-- What holds before the loop and is kept by every turn holds after it. -/
theorem forUp_induction {α : Type} {n : Nat} {body : Nat → α → α} {a : α} (P : Nat → α → Prop)
    (h0 : P 0 a) (hstep : ∀ x m, x < n → P x m → P (x + 1) (body x m)) : P n (forUp n body a) := by
  induction n with
  | zero => exact h0
  | succ n ih => exact hstep n _ (by omega) (ih fun x m hx => hstep x m (by omega))

/-- A loop whose turns agree gives the same result. -/
theorem forUp_congr {α : Type} {n : Nat} {f g : Nat → α → α} {a : α}
    (h : ∀ x m, x < n → f x m = g x m) : forUp n f a = forUp n g a := by
  induction n with
  | zero => rfl
  | succ n ih => rw [forUp_succ, forUp_succ, ih fun x m hx => h x m (by omega), h n _ (by omega)]

end Sys2Proof.Machine
end

