-- ==== Sys2Proof/Laws/Operands.lean ====
section
/-! SUPPORT. The derived quantities of a legal format, the addresses of the walk, subwords bit by bit, and
what the three memory loops leave at every address. -/

namespace Sys2Proof.Machine

open Sys2Proof

/-! ### Legal formats -/

theorem legalFormat_iff {nb : Nat} {ns : Int} :
    legalFormat nb ns = true ↔ (nb = 1 ∨ nb = 2 ∨ nb = 4 ∨ nb = 8) ∧ -1 ≤ ns := by
  simp [legalFormat, or_assoc]

/-- A latched format has one of the four widths and a stride of -1 or more (R74). -/
theorem Fmt.legal_of_valid {f : Fmt} (hl : f.legal) (hv : f.valid = true) :
    (f.bppNat = 1 ∨ f.bppNat = 2 ∨ f.bppNat = 4 ∨ f.bppNat = 8) ∧ -1 ≤ f.st := by
  rw [Fmt.legal, if_pos hv] at hl
  exact legalFormat_iff.1 hl

/-- bpr * ppb = 8: every encoded row holds exactly the 8 pixels of a tile row (R77). -/
theorem Fmt.bpr_mul_ppb {f : Fmt} (h : f.bppNat = 1 ∨ f.bppNat = 2 ∨ f.bppNat = 4 ∨ f.bppNat = 8) :
    f.bpr * f.ppb = 8 := by
  unfold Fmt.bpr Fmt.ppb
  rcases h with h | h | h | h <;> rw [h]

/-- pitch = bpr * (st + 1), an integer at least 0 (R86). -/
theorem Fmt.pitch_eq {f : Fmt} (hst : -1 ≤ f.st) : (f.pitch : Int) = f.bpr * (f.st + 1) := by
  have h : (f.bpr : Int) + f.strideBytes = f.bpr * (f.st + 1) := by
    unfold Fmt.strideBytes; ring
  rw [Fmt.pitch, h, Int.toNat_of_nonneg]
  exact Int.mul_nonneg (by omega) (by omega)

theorem Fmt.pitch_eq_zero {f : Fmt} (hst : f.st = -1) : f.pitch = 0 := by
  have := Fmt.pitch_eq (f := f) (by omega)
  rw [hst] at this
  simpa using this

/-- For st >= 0 the rows do not overlap: pitch >= bpr (R86). -/
theorem Fmt.bpr_le_pitch {f : Fmt} (hst : 0 ≤ f.st) : f.bpr ≤ f.pitch := by
  have h := Fmt.pitch_eq (f := f) (by omega)
  have : (f.bpr : Int) * 1 ≤ f.bpr * (f.st + 1) :=
    Int.mul_le_mul_of_nonneg_left (by omega) (by omega)
  omega

/-- pitch < 2^19 for every encodable operand (R91): the stride field has 16 bits, bpr at most 15. -/
theorem Fmt.pitch_lt (f : Fmt) (hst : -1 ≤ f.st) : f.pitch ≤ f.bpr * 32768 := by
  have h := Fmt.pitch_eq hst
  have hs : f.st ≤ 32767 := by
    have := BitVec.toInt_lt (x := f.stride)
    unfold Fmt.st; omega
  have : (f.bpr : Int) * (f.st + 1) ≤ f.bpr * 32768 :=
    Int.mul_le_mul_of_nonneg_left (by omega) (by omega)
  omega

/-! ### The walk -/

/-- The walked addresses are addr(r, b) for r < rows and b < bpr (R88). -/
theorem Fmt.mem_walk {f : Fmt} {base rows a : Nat} :
    a ∈ f.walk base rows ↔ ∃ r b, r < rows ∧ b < f.bpr ∧ a = f.addr base r b := by
  simp only [Fmt.walk, List.mem_flatMap, List.mem_map, List.mem_range]
  constructor
  · rintro ⟨r, hr, b, hb, rfl⟩; exact ⟨r, b, hr, hb, rfl⟩
  · rintro ⟨r, b, hr, hb, rfl⟩; exact ⟨r, hr, b, hb, rfl⟩

/-- Every walked address is below the required length (R47, R88, R91). -/
theorem Fmt.addr_lt_required {f : Fmt} {base rows r b : Nat} (hr : r < rows) (hb : b < f.bpr) :
    f.addr base r b < f.required base rows := by
  have h1 : r * f.pitch ≤ (rows - 1) * f.pitch := Nat.mul_le_mul_right _ (by omega)
  have h2 := Nat.le_max_right f.tileSize ((rows - 1) * f.pitch + f.bpr)
  unfold Fmt.addr Fmt.required
  omega

theorem Fmt.base_add_tileSize_le_required (f : Fmt) (base rows : Nat) :
    base + f.tileSize ≤ f.required base rows := by
  have := Nat.le_max_left f.tileSize ((rows - 1) * f.pitch + f.bpr)
  unfold Fmt.required
  omega

/-- The check of R92 passed, the accesses of the walk exist (R47). -/
theorem Fmt.walk_lt {f : Fmt} {base rows n : Nat} (h : f.required base rows ≤ n) :
    ∀ a ∈ f.walk base rows, a < n := by
  intro a ha
  obtain ⟨r, b, hr, hb, rfl⟩ := Fmt.mem_walk.1 ha
  exact lt_of_lt_of_le (Fmt.addr_lt_required hr hb) h

/-! ### OFFSET -/

theorem State.base_eq (s : State) : s.base = s.offset.toNat / 8 := by
  simp [State.base, Nat.shiftRight_eq_div_pow]

/-- OFFSET[2:0] != 0 is: OFFSET is no multiple of 8 (R87). -/
theorem State.misaligned_iff (s : State) : s.misaligned = true ↔ s.offset.toNat % 8 ≠ 0 := by
  unfold State.misaligned field
  simp [← BitVec.toNat_inj, Nat.shiftRight_zero]

theorem State.misaligned_eq_false_iff (s : State) : s.misaligned = false ↔ s.offset.toNat % 8 = 0 := by
  have h := State.misaligned_iff s
  cases hm : s.misaligned <;> simp [hm] at h ⊢ <;> omega

/-! ### Subwords -/

theorem Fmt.sub_lt {f : Fmt} {k : Nat} (hk : k < f.ppb) : f.sub k < f.ppb := by
  unfold Fmt.sub
  split <;> omega

/-- sub is its own inverse on the walk positions of a byte (R89). -/
theorem Fmt.sub_sub {f : Fmt} {k : Nat} (hk : k < f.ppb) : f.sub (f.sub k) = k := by
  unfold Fmt.sub
  cases f.ord
  · simp only; omega
  · rfl

theorem Fmt.getLsbD_mask {f : Fmt}
    (h : f.bppNat = 1 ∨ f.bppNat = 2 ∨ f.bppNat = 4 ∨ f.bppNat = 8) (n : Nat) :
    (BitVec.ofNat 8 f.mask).getLsbD n = decide (n < f.bppNat) := by
  by_cases hn : n < 8
  · unfold Fmt.mask
    rcases h with h | h | h | h <;> rw [h] <;> interval_cases n <;> decide
  · have h1 : ¬ n < f.bppNat := by omega
    rw [BitVec.getLsbD_of_ge _ _ (by omega)]
    simp [h1]

/-- The bits of an extracted pixel (R90): bit n of the pixel at group i is bit bpp*i + n of the byte. -/
theorem Fmt.getLsbD_extract {f : Fmt}
    (h : f.bppNat = 1 ∨ f.bppNat = 2 ∨ f.bppNat = 4 ∨ f.bppNat = 8) (v : Byte) (i n : Nat) :
    (f.extract v i).getLsbD n = (decide (n < f.bppNat) && v.getLsbD (f.bppNat * i + n)) := by
  rw [Fmt.extract, BitVec.getLsbD_and, Fmt.getLsbD_mask h, BitVec.getLsbD_ushiftRight, Bool.and_comm]

/-- The value of an extracted pixel, as the document writes it, on integers (R90). -/
theorem Fmt.toNat_extract {f : Fmt}
    (h : f.bppNat = 1 ∨ f.bppNat = 2 ∨ f.bppNat = 4 ∨ f.bppNat = 8) (v : Byte) (i : Nat) :
    (f.extract v i).toNat = (v.toNat >>> (f.bppNat * i)) &&& f.mask := by
  have hm : f.mask % 256 = f.mask := by
    unfold Fmt.mask
    rcases h with h | h | h | h <;> rw [h] <;> rfl
  simp [Fmt.extract, hm]

/-- The bits of a packed byte (R103): bit p comes from the pixel whose group holds it. -/
theorem Fmt.getLsbD_pack {f : Fmt}
    (h : f.bppNat = 1 ∨ f.bppNat = 2 ∨ f.bppNat = 4 ∨ f.bppNat = 8) (pix : Nat → Byte) (r b : Nat)
    {p : Nat} (hp : p < 8) :
    (f.pack pix r b).getLsbD p =
      (pix (r * 8 + b * f.ppb + f.sub (p / f.bppNat))).getLsbD (p % f.bppNat) := by
  have hpos : 0 < f.bppNat := by omega
  have h8 : f.bppNat * f.ppb = 8 := Fmt.bpr_mul_ppb h
  have key : ∀ n, n ≤ f.ppb →
      ((forUp n (fun k acc => acc |||
          ((pix (r * 8 + b * f.ppb + k) &&& BitVec.ofNat 8 f.mask) <<< (f.bppNat * f.sub k))) 0#8).getLsbD p = true
        ↔ ∃ k, k < n ∧ f.sub k = p / f.bppNat ∧
            (pix (r * 8 + b * f.ppb + k)).getLsbD (p % f.bppNat) = true) := by
    intro n
    induction n with
    | zero => simp
    | succ n ih =>
      intro hn
      rw [forUp_succ, BitVec.getLsbD_or, Bool.or_eq_true, ih (by omega), BitVec.getLsbD_shiftLeft,
        BitVec.getLsbD_and, Fmt.getLsbD_mask h]
      have hdm := Nat.div_add_mod p f.bppNat
      have hmod := Nat.mod_lt p hpos
      have hgroup : (¬ p < f.bppNat * f.sub n ∧ p - f.bppNat * f.sub n < f.bppNat) ↔
          f.sub n = p / f.bppNat := by
        constructor
        · rintro ⟨h1, h2⟩
          have e : p = f.bppNat * f.sub n + (p - f.bppNat * f.sub n) := by omega
          rw [e, Nat.mul_add_div hpos, Nat.div_eq_of_lt h2, Nat.add_zero]
        · intro e
          rw [e]
          omega
      constructor
      · rintro (⟨k, hk, hs, hv⟩ | hv)
        · exact ⟨k, by omega, hs, hv⟩
        · simp only [Bool.and_eq_true, decide_eq_true_eq, Bool.not_eq_true', decide_eq_false_iff_not] at hv
          obtain ⟨⟨-, h1⟩, h2, h3⟩ := hv
          have hs := hgroup.1 ⟨h1, h3⟩
          refine ⟨n, by omega, hs, ?_⟩
          rw [hs] at h2
          rwa [show p % f.bppNat = p - f.bppNat * (p / f.bppNat) by omega]
      · rintro ⟨k, hk, hs, hv⟩
        by_cases hkn : k < n
        · exact Or.inl ⟨k, hkn, hs, hv⟩
        · obtain rfl : k = n := by omega
          obtain ⟨h1, h2⟩ := hgroup.2 hs
          right
          rw [show p % f.bppNat = p - f.bppNat * f.sub k by rw [hs]; omega] at hv
          simp [hp, h1, h2, hv]
  have hdiv : p / f.bppNat < f.ppb := by
    rw [Nat.div_lt_iff_lt_mul hpos, Nat.mul_comm, h8]; exact hp
  rw [Bool.eq_iff_iff, Fmt.pack, key _ le_rfl]
  constructor
  · rintro ⟨k, hk, hs, hv⟩
    rwa [← hs, Fmt.sub_sub hk]
  · intro hv
    exact ⟨f.sub (p / f.bppNat), Fmt.sub_lt hdiv, Fmt.sub_sub hdiv, hv⟩

/-- Unpacking a packed byte gives each pixel masked to its low bpp bits (R103, R110). -/
theorem Fmt.extract_pack {f : Fmt}
    (h : f.bppNat = 1 ∨ f.bppNat = 2 ∨ f.bppNat = 4 ∨ f.bppNat = 8) (pix : Nat → Byte) (r b : Nat)
    {k : Nat} (hk : k < f.ppb) :
    f.extract (f.pack pix r b) (f.sub k) = pix (r * 8 + b * f.ppb + k) &&& BitVec.ofNat 8 f.mask := by
  have hpos : 0 < f.bppNat := by omega
  have h8 : f.bppNat * f.ppb = 8 := Fmt.bpr_mul_ppb h
  apply BitVec.eq_of_getLsbD_eq
  intro n _
  rw [Fmt.getLsbD_extract h, BitVec.getLsbD_and, Fmt.getLsbD_mask h, Bool.and_comm]
  by_cases hn : n < f.bppNat
  · have hlt : f.bppNat * f.sub k + n < 8 := by
      have : f.bppNat * (f.sub k + 1) ≤ f.bppNat * f.ppb := Nat.mul_le_mul_left _ (Fmt.sub_lt hk)
      rw [h8, Nat.mul_add] at this
      omega
    rw [Fmt.getLsbD_pack h pix r b hlt, Nat.mul_add_div hpos, Nat.div_eq_of_lt hn, Nat.add_zero,
      Fmt.sub_sub hk, Nat.mul_add_mod, Nat.mod_eq_of_lt hn]
  · simp [hn]

/-- Packing the pixels extracted from a byte gives the byte back (R112). -/
theorem Fmt.pack_extract {f : Fmt}
    (h : f.bppNat = 1 ∨ f.bppNat = 2 ∨ f.bppNat = 4 ∨ f.bppNat = 8) (pix : Nat → Byte) (r b : Nat)
    (v : Byte) (hp : ∀ k, k < f.ppb → pix (r * 8 + b * f.ppb + k) = f.extract v (f.sub k)) :
    f.pack pix r b = v := by
  have hpos : 0 < f.bppNat := by omega
  have h8 : f.bppNat * f.ppb = 8 := Fmt.bpr_mul_ppb h
  apply BitVec.eq_of_getLsbD_eq
  intro n hn
  have hdiv : n / f.bppNat < f.ppb := by
    rw [Nat.div_lt_iff_lt_mul hpos, Nat.mul_comm, h8]; exact hn
  rw [Fmt.getLsbD_pack h pix r b hn, hp _ (Fmt.sub_lt hdiv), Fmt.getLsbD_extract h, Fmt.sub_sub hdiv,
    Nat.div_add_mod]
  simp [Nat.mod_lt n hpos]

/-- Packing uses only the low bpp bits of each pixel (R103, R110). -/
theorem Fmt.pack_congr {f : Fmt} {p q : Nat → Byte} {r b : Nat}
    (hpq : ∀ k, k < f.ppb → p (r * 8 + b * f.ppb + k) &&& BitVec.ofNat 8 f.mask =
      q (r * 8 + b * f.ppb + k) &&& BitVec.ofNat 8 f.mask) :
    f.pack p r b = f.pack q r b := by
  unfold Fmt.pack
  exact forUp_congr fun k acc hk => by rw [hpq k hk]

/-! ### What the loops leave at every address -/

/-- A loop whose turn `x` fills the block of `w` addresses from `o + x * w` fills the addresses from `o` to
`o + n * w`, and leaves every other address as it was. -/
theorem lookup_forUp_blocks {body : Nat → Memory → Memory} {g : Nat → Nat → Byte} {o w n : Nat} (hw : 0 < w)
    (hbody : ∀ x, x < n → ∀ m j, Memory.lookup (body x m) j =
      if o + x * w ≤ j ∧ j < o + x * w + w then some (g x (j - (o + x * w))) else Memory.lookup m j)
    (m : Memory) (j : Nat) :
    Memory.lookup (forUp n body m) j =
      if o ≤ j ∧ j < o + n * w then some (g ((j - o) / w) ((j - o) % w)) else Memory.lookup m j := by
  induction n with
  | zero =>
    rw [forUp_zero, if_neg (by omega)]
  | succ n ih =>
    rw [forUp_succ, hbody n (by omega), ih fun x hx => hbody x (by omega)]
    have hs : (n + 1) * w = n * w + w := by ring
    by_cases h1 : o + n * w ≤ j ∧ j < o + n * w + w
    · obtain ⟨d, hd, rfl⟩ : ∃ d, d < w ∧ j = o + n * w + d := ⟨j - (o + n * w), by omega, by omega⟩
      have hj : o + n * w + d - o = w * n + d := by rw [Nat.mul_comm w n]; omega
      have hdiv : (o + n * w + d - o) / w = n := by
        rw [hj, Nat.mul_add_div hw, Nat.div_eq_of_lt hd, Nat.add_zero]
      have hmod : (o + n * w + d - o) % w = o + n * w + d - (o + n * w) := by
        rw [hj, Nat.mul_add_mod, Nat.mod_eq_of_lt hd]; omega
      rw [if_pos h1, if_pos (by omega), hdiv, hmod]
    · rw [if_neg h1]
      by_cases h2 : o ≤ j ∧ j < o + n * w
      · rw [if_pos h2, if_pos (by omega)]
      · rw [if_neg h2, if_neg (by omega)]

/-- A loop of single writes to rising addresses. -/
theorem lookup_forUp_write (n o : Nat) (g : Nat → Byte) (m : Memory) (j : Nat) :
    Memory.lookup (forUp n (fun x m => Memory.write m (o + x) (g x)) m) j =
      if o ≤ j ∧ j < o + n then some (g (j - o)) else Memory.lookup m j := by
  have := lookup_forUp_blocks (body := fun x m => Memory.write m (o + x) (g x)) (g := fun x _ => g x)
    (o := o) (w := 1) (n := n) (by omega)
    (fun x _ m j => by
      rw [Memory.lookup_write]
      by_cases h : j = o + x
      · rw [if_pos h, if_pos (by omega)]
      · rw [if_neg h, if_neg (by omega)]) m j
  simpa using this

/-- The zero fill (R108): BUF[0, n) reads 0, the rest as before. -/
theorem lookup_zeroFill (n : Nat) (m : Memory) (j : Nat) :
    Memory.lookup (zeroFill n m) j = if j < n then some 0#8 else Memory.lookup m j := by
  have := lookup_forUp_write n 0 (fun _ => 0#8) m j
  simpa [zeroFill] using this

/-- DECODE's loops at every entry (R94, R95): entry r*8 + b*ppb + k below rows*8 holds the pixel of walk
position k of byte b of row r; the others are unchanged. -/
theorem Fmt.lookup_unpackRows {f : Fmt}
    (h : f.bppNat = 1 ∨ f.bppNat = 2 ∨ f.bppNat = 4 ∨ f.bppNat = 8) (read : Nat → Byte)
    (base rows : Nat) (pix : Memory) (j : Nat) :
    Memory.lookup (f.unpackRows read base rows pix) j =
      if j < rows * 8 then
        some (f.extract (read (f.addr base (j / 8) (j % 8 / f.ppb))) (f.sub (j % 8 % f.ppb)))
      else Memory.lookup pix j := by
  have h8 : f.bpr * f.ppb = 8 := Fmt.bpr_mul_ppb h
  have hppb : 0 < f.ppb := by
    rcases Nat.eq_zero_or_pos f.ppb with h0 | h0
    · rw [h0] at h8; omega
    · exact h0
  have hrow : ∀ r m j, Memory.lookup
      (forUp f.bpr (fun b => forUp f.ppb (fun k m =>
        Memory.write m (r * 8 + b * f.ppb + k) (f.extract (read (f.addr base r b)) (f.sub k)))) m) j =
      if r * 8 ≤ j ∧ j < r * 8 + 8 then
        some (f.extract (read (f.addr base r ((j - r * 8) / f.ppb))) (f.sub ((j - r * 8) % f.ppb)))
      else Memory.lookup m j := by
    intro r m j
    have := lookup_forUp_blocks (o := r * 8) (w := f.ppb) (n := f.bpr) hppb
      (body := fun b => forUp f.ppb (fun k m =>
        Memory.write m (r * 8 + b * f.ppb + k) (f.extract (read (f.addr base r b)) (f.sub k))))
      (g := fun b k => f.extract (read (f.addr base r b)) (f.sub k))
      (fun b _ m j => lookup_forUp_write _ _ _ m j) m j
    rwa [h8] at this
  have := lookup_forUp_blocks (o := 0) (w := 8) (n := rows) (by omega)
    (body := fun r => forUp f.bpr (fun b => forUp f.ppb (fun k m =>
      Memory.write m (r * 8 + b * f.ppb + k) (f.extract (read (f.addr base r b)) (f.sub k)))))
    (g := fun r c => f.extract (read (f.addr base r (c / f.ppb))) (f.sub (c % f.ppb)))
    (fun r _ m j => by rw [hrow]; simp) pix j
  simpa [Fmt.unpackRows] using this

/-- One row of ENCODE's loops: its bpr bytes are written, every other byte is unchanged. -/
theorem Fmt.lookup_packRow (f : Fmt) (pix : Nat → Byte) (base r : Nat) (m : Memory) (a : Nat) :
    Memory.lookup (forUp f.bpr (fun b m => Memory.write m (f.addr base r b) (f.pack pix r b)) m) a =
      if f.addr base r 0 ≤ a ∧ a < f.addr base r 0 + f.bpr then
        some (f.pack pix r (a - f.addr base r 0))
      else Memory.lookup m a := by
  simpa [Fmt.addr] using lookup_forUp_write f.bpr (base + r * f.pitch) (fun b => f.pack pix r b) m a

/-- A byte that no row's walk touches is unchanged (R107). -/
theorem Fmt.lookup_packRows_of_not_mem (f : Fmt) (pix : Nat → Byte) (base : Nat) (buf : Memory) (a : Nat)
    (ha : a ∉ f.walk base 8) : Memory.lookup (f.packRows pix base buf) a = Memory.lookup buf a := by
  unfold Fmt.packRows
  refine forUp_induction (P := fun _ m => Memory.lookup m a = Memory.lookup buf a) rfl ?_
  intro r m hr ih
  rw [Fmt.lookup_packRow, if_neg, ih]
  rintro ⟨h1, h2⟩
  refine ha (Fmt.mem_walk.2 ⟨r, a - f.addr base r 0, hr, by omega, ?_⟩)
  unfold Fmt.addr at *
  omega

/-- A walked byte holds the packing of the last row that touches it (R106). -/
theorem Fmt.lookup_packRows_last (f : Fmt) (pix : Nat → Byte) (base : Nat) (buf : Memory) {r b : Nat}
    (hr : r < 8) (hb : b < f.bpr)
    (hlast : ∀ q, r < q → q < 8 →
      ¬ (f.addr base q 0 ≤ f.addr base r b ∧ f.addr base r b < f.addr base q 0 + f.bpr)) :
    Memory.lookup (f.packRows pix base buf) (f.addr base r b) = some (f.pack pix r b) := by
  unfold Fmt.packRows
  have := forUp_induction (n := 8) (a := buf)
    (body := fun r => forUp f.bpr (fun b m => Memory.write m (f.addr base r b) (f.pack pix r b)))
    (P := fun x m => r < x → Memory.lookup m (f.addr base r b) = some (f.pack pix r b))
    (fun h => by omega)
    (fun q m hq ih h => by
      rw [Fmt.lookup_packRow]
      by_cases hqr : q = r
      · subst hqr
        have e : f.addr base q b - f.addr base q 0 = b := by unfold Fmt.addr; omega
        rw [if_pos (by unfold Fmt.addr; omega), e]
      · rw [if_neg (hlast q (by omega) hq), ih (by omega)])
  exact this hr

/-- For st >= 0 the rows are disjoint: every walked byte holds its own packing (R105, R107). -/
theorem Fmt.lookup_packRows_of_nonneg {f : Fmt} (hst : 0 ≤ f.st) (pix : Nat → Byte) (base : Nat)
    (buf : Memory) {r b : Nat} (hr : r < 8) (hb : b < f.bpr) :
    Memory.lookup (f.packRows pix base buf) (f.addr base r b) = some (f.pack pix r b) := by
  refine Fmt.lookup_packRows_last f pix base buf hr hb fun q hq _ => ?_
  have h1 := Fmt.bpr_le_pitch hst
  have h2 : (r + 1) * f.pitch ≤ q * f.pitch := Nat.mul_le_mul_right _ (by omega)
  have h3 : (r + 1) * f.pitch = r * f.pitch + f.pitch := by ring
  unfold Fmt.addr
  omega

/-- For st = -1 the rows coincide and row 7 wins (R106). -/
theorem Fmt.lookup_packRows_of_neg {f : Fmt} (hst : f.st = -1) (pix : Nat → Byte) (base : Nat)
    (buf : Memory) {b : Nat} (hb : b < f.bpr) :
    Memory.lookup (f.packRows pix base buf) (base + b) = some (f.pack pix 7 b) := by
  have h := Fmt.lookup_packRows_last f pix base buf (r := 7) (b := b) (by omega) hb
    (fun q hq hq' => by omega)
  simpa [Fmt.addr, Fmt.pitch_eq_zero hst] using h

/-- Every walked byte of a legal format: its own packing for st >= 0, row 7's for st = -1 (R105, R106). -/
theorem Fmt.lookup_packRows {f : Fmt} (hst : -1 ≤ f.st) (pix : Nat → Byte) (base : Nat) (buf : Memory)
    {r b : Nat} (hr : r < 8) (hb : b < f.bpr) :
    Memory.lookup (f.packRows pix base buf) (f.addr base r b) =
      some (f.pack pix (if 0 ≤ f.st then r else 7) b) := by
  by_cases h : 0 ≤ f.st
  · rw [if_pos h]; exact Fmt.lookup_packRows_of_nonneg h _ _ _ hr hb
  · have h1 : f.st = -1 := by omega
    rw [if_neg h]
    have := Fmt.lookup_packRows_of_neg h1 pix base buf hb
    simpa [Fmt.addr, Fmt.pitch_eq_zero h1] using this

/-- Column b*ppb + k of a row is below 8 (R77). -/
theorem Fmt.column_lt {f : Fmt} (h : f.bppNat = 1 ∨ f.bppNat = 2 ∨ f.bppNat = 4 ∨ f.bppNat = 8)
    {b k : Nat} (hb : b < f.bpr) (hk : k < f.ppb) : b * f.ppb + k < 8 := by
  have h8 := Fmt.bpr_mul_ppb h
  have hle : (b + 1) * f.ppb ≤ f.bpr * f.ppb := Nat.mul_le_mul_right _ (by omega)
  rw [h8, Nat.add_mul] at hle
  omega

/-- Entry r*8 + b*ppb + k is in row r, byte b, walk position k (R95). -/
theorem Fmt.entry_eq {f : Fmt} (h : f.bppNat = 1 ∨ f.bppNat = 2 ∨ f.bppNat = 4 ∨ f.bppNat = 8)
    (r : Nat) {b k : Nat} (hb : b < f.bpr) (hk : k < f.ppb) :
    (r * 8 + b * f.ppb + k) / 8 = r ∧ (r * 8 + b * f.ppb + k) % 8 / f.ppb = b ∧
      (r * 8 + b * f.ppb + k) % 8 % f.ppb = k := by
  have hlt := Fmt.column_lt h hb hk
  have e : (r * 8 + b * f.ppb + k) % 8 = f.ppb * b + k := by
    rw [Nat.mul_comm f.ppb b]; omega
  refine ⟨by omega, ?_, ?_⟩
  · rw [e, Nat.mul_add_div (by omega), Nat.div_eq_of_lt hk, Nat.add_zero]
  · rw [e, Nat.mul_add_mod, Nat.mod_eq_of_lt hk]

/-- DECODE's loops read only the walked bytes (R97). -/
theorem Fmt.unpackRows_congr {f : Fmt} {p q : Nat → Byte} {base rows : Nat} {m : Memory}
    (h : ∀ a ∈ f.walk base rows, p a = q a) :
    f.unpackRows p base rows m = f.unpackRows q base rows m := by
  unfold Fmt.unpackRows
  refine forUp_congr fun r m hr => forUp_congr fun b m hb => forUp_congr fun k m _ => ?_
  rw [h _ (Fmt.mem_walk.2 ⟨r, b, hr, hb, rfl⟩)]

/-- ENCODE's loops depend on the pixels only through the packed bytes. -/
theorem Fmt.packRows_congr {f : Fmt} {p q : Nat → Byte} {base : Nat} {m : Memory}
    (h : ∀ r b, r < 8 → b < f.bpr → f.pack p r b = f.pack q r b) :
    f.packRows p base m = f.packRows q base m := by
  unfold Fmt.packRows
  exact forUp_congr fun r m hr => forUp_congr fun b m hb => by rw [h r b hr hb]

/-! ### The loops keep the canonical form -/

theorem Fmt.wf_unpackRows {f : Fmt}
    (h : f.bppNat = 1 ∨ f.bppNat = 2 ∨ f.bppNat = 4 ∨ f.bppNat = 8) (read : Nat → Byte)
    {base rows : Nat} (hrows : rows ≤ 8) {pix : Memory} (hp : Memory.wf 64 pix) :
    Memory.wf 64 (f.unpackRows read base rows pix) := by
  have h8 : f.bpr * f.ppb = 8 := Fmt.bpr_mul_ppb h
  unfold Fmt.unpackRows
  refine forUp_induction (P := fun _ m => Memory.wf 64 m) hp fun r m hr hm => ?_
  refine forUp_induction (P := fun _ m => Memory.wf 64 m) hm fun b m hb hm => ?_
  refine forUp_induction (P := fun _ m => Memory.wf 64 m) hm fun k m hk hm => ?_
  refine Memory.wf_write hm ?_
  have : (b + 1) * f.ppb ≤ f.bpr * f.ppb := Nat.mul_le_mul_right _ (by omega)
  rw [Nat.add_mul, h8] at this
  omega

theorem Fmt.wf_packRows {f : Fmt} {pix : Nat → Byte} {base size : Nat} {buf : Memory}
    (hwalk : ∀ a ∈ f.walk base 8, a < size) (hb : Memory.wf size buf) :
    Memory.wf size (f.packRows pix base buf) := by
  unfold Fmt.packRows
  refine forUp_induction (P := fun _ m => Memory.wf size m) hb fun r m hr hm => ?_
  refine forUp_induction (P := fun _ m => Memory.wf size m) hm fun b m hb' hm => ?_
  exact Memory.wf_write hm (hwalk _ (Fmt.mem_walk.2 ⟨r, b, hr, hb', rfl⟩))

theorem wf_zeroFill {n size : Nat} (hn : n ≤ size) {buf : Memory} (hb : Memory.wf size buf) :
    Memory.wf size (zeroFill n buf) := by
  unfold zeroFill
  refine forUp_induction (P := fun _ m => Memory.wf size m) hb fun a m ha hm => ?_
  exact Memory.wf_write hm (by omega)

end Sys2Proof.Machine
end

