-- ==== Sys2Proof/Laws/Exec.lean ====
section
/-! SUPPORT. Everything the shared frame of the commands can do, when each command's checks pass, and the
equation of each command. -/

namespace Sys2Proof.Machine

open Sys2Proof

/-! ### The frame of a command -/

/-- Everything a command that goes on can do: the state its fault leaves, or its completed effect. -/
theorem command_eq_next_iff {s t effect : State} {check : Option CmdFault} {accesses : List Nat} :
    command s check accesses effect = .next t ↔
      (∃ f, check = some f ∧ t = s.raise f) ∨
      (check = none ∧ (∀ a ∈ accesses, a < s.cfg.bufSize) ∧ t = effect.complete) := by
  unfold command
  cases check with
  | some f => simp [eq_comm]
  | none =>
    cases hfind : accesses.find? (fun a => decide (s.cfg.bufSize ≤ a)) with
    | some a =>
      have ha := List.find?_some hfind
      have hm := List.mem_of_find?_eq_some hfind
      simp only [reduceCtorEq, false_and, exists_false, true_and, false_or, false_iff, not_and]
      intro hall
      have := hall a hm
      simp at ha
      omega
    | none =>
      have hall : ∀ a ∈ accesses, a < s.cfg.bufSize := by simpa using hfind
      simp only [Host.Outcome.next.injEq, reduceCtorEq, false_and, exists_false, true_and, false_or]
      constructor
      · rintro rfl; exact ⟨hall, rfl⟩
      · rintro ⟨-, rfl⟩; rfl

/-- A failing check: the state its fault leaves, whatever the accesses. -/
theorem command_of_some {s effect : State} {check : Option CmdFault} {accesses : List Nat} {f : CmdFault}
    (h : check = some f) : command s check accesses effect = .next (s.raise f) :=
  command_eq_next_iff.2 (.inl ⟨f, h, rfl⟩)

/-- Checks passed and accesses that exist: the completed effect. -/
theorem command_of_none {s effect : State} {check : Option CmdFault} {accesses : List Nat}
    (h : check = none) (hacc : ∀ a ∈ accesses, a < s.cfg.bufSize) :
    command s check accesses effect = .next effect.complete :=
  command_eq_next_iff.2 (.inr ⟨h, hacc, rfl⟩)

/-- A command never refuses, and stops only where an access does not exist (log 7). -/
theorem command_cases (s effect : State) (check : Option CmdFault) (accesses : List Nat) :
    (∃ t, command s check accesses effect = .next t) ∨
      ∃ a ∈ accesses, check = none ∧ s.cfg.bufSize ≤ a := by
  cases check with
  | some f => exact .inl ⟨_, command_of_some rfl⟩
  | none =>
    by_cases h : ∀ a ∈ accesses, a < s.cfg.bufSize
    · exact .inl ⟨_, command_of_none rfl h⟩
    · push Not at h
      obtain ⟨a, ha, hle⟩ := h
      exact .inr ⟨a, ha, rfl, hle⟩

/-! ### The commands -/

/-- CONFIG in the frame of a command (R73). -/
theorem exec_config (nb : Nat) (no : PixelOrdering) (ns : Int) (s : State) :
    exec (.config nb no ns) s = command s (checkConfig nb ns) [] (s.latch (.candidate nb no ns)) := rfl

/-- DECODE in the frame of a command (R94). -/
theorem exec_decode (rows : Nat) (s : State) :
    exec (.decode rows) s = command s (checkDecode rows s) (s.fmt.walk s.base rows)
      (s.setPixels (s.fmt.unpackRows s.bufAt s.base rows s.pix) (rows * 8)) := rfl

/-- ENCODE in the frame of a command (R105). -/
theorem exec_encode (s : State) :
    exec .encode s = command s (checkEncode s) (s.fmt.walk s.base 8)
      (s.setBuf (s.fmt.packRows s.pixAt s.base s.buf)) := rfl

/-- ENCZ in the frame of a command (R108). -/
theorem exec_encz (s : State) :
    exec .encz s = command s (checkEncz s) (List.range s.fmt.tileSize ++ s.fmt.walk 0 8)
      ((s.setBufLen s.fmt.tileSize).setBuf
        (s.fmt.packRows s.pixAt 0 (zeroFill s.fmt.tileSize s.buf))) := rfl

/-! ### Priorities -/

@[simp] theorem firstFault_nil : firstFault [] = none := rfl

@[simp] theorem firstFault_cons (applies : Bool) (f : CmdFault) (rest : List (Bool × CmdFault)) :
    firstFault ((applies, f) :: rest) = if applies then some f else firstFault rest := rfl

/-- No fault: no cause applies. -/
theorem firstFault_eq_none_iff {l : List (Bool × CmdFault)} :
    firstFault l = none ↔ ∀ p ∈ l, p.1 = false := by
  induction l with
  | nil => simp
  | cons p l ih =>
    obtain ⟨b, f⟩ := p
    cases b <;> simp [ih]

/-- A reported fault is one of those listed, and its cause applies. -/
theorem firstFault_mem {l : List (Bool × CmdFault)} {f : CmdFault} (h : firstFault l = some f) :
    (true, f) ∈ l := by
  induction l with
  | nil => simp at h
  | cons p l ih =>
    obtain ⟨b, g⟩ := p
    cases b
    · exact List.mem_cons_of_mem _ (ih (by simpa using h))
    · have hg : g = f := by simpa using h
      simp [hg]

/-- No fault has code 0 (R118). -/
theorem CmdFault.code_ne_zero (f : CmdFault) : f.code ≠ 0#4 := by
  cases f <;> simp [CmdFault.code]

/-- Everything a command that goes on can do: the state one of its faults leaves, or its own completed
effect with its checks passed. -/
theorem exec_cases {i : Instr} {s t : State} (h : exec i s = .next t) :
    (∃ f, t = s.raise f) ∨
    (∃ nb no ns, i = .config nb no ns ∧ checkConfig nb ns = none ∧
      t = (s.latch (.candidate nb no ns)).complete) ∨
    (∃ rows, i = .decode rows ∧ checkDecode rows s = none ∧
      t = (s.setPixels (s.fmt.unpackRows s.bufAt s.base rows s.pix) (rows * 8)).complete) ∨
    (i = .encode ∧ checkEncode s = none ∧
      t = (s.setBuf (s.fmt.packRows s.pixAt s.base s.buf)).complete) ∨
    (i = .encz ∧ checkEncz s = none ∧
      t = ((s.setBufLen s.fmt.tileSize).setBuf
        (s.fmt.packRows s.pixAt 0 (zeroFill s.fmt.tileSize s.buf))).complete) := by
  cases i with
  | config nb no ns =>
    rw [exec_config] at h
    rcases command_eq_next_iff.1 h with ⟨f, -, h⟩ | ⟨h1, -, h⟩
    · exact .inl ⟨f, h⟩
    · exact .inr (.inl ⟨nb, no, ns, rfl, h1, h⟩)
  | decode rows =>
    rw [exec_decode] at h
    rcases command_eq_next_iff.1 h with ⟨f, -, h⟩ | ⟨h1, -, h⟩
    · exact .inl ⟨f, h⟩
    · exact .inr (.inr (.inl ⟨rows, rfl, h1, h⟩))
  | encode =>
    rw [exec_encode] at h
    rcases command_eq_next_iff.1 h with ⟨f, -, h⟩ | ⟨h1, -, h⟩
    · exact .inl ⟨f, h⟩
    · exact .inr (.inr (.inr (.inl ⟨rfl, h1, h⟩)))
  | encz =>
    rw [exec_encz] at h
    rcases command_eq_next_iff.1 h with ⟨f, -, h⟩ | ⟨h1, -, h⟩
    · exact .inl ⟨f, h⟩
    · exact .inr (.inr (.inr (.inr ⟨rfl, h1, h⟩)))

/-! ### When each command's checks pass -/

theorem checkConfig_eq (nb : Nat) (ns : Int) :
    checkConfig nb ns = if legalFormat nb ns then none else some .invalidFormat := by
  cases h : legalFormat nb ns <;> simp [checkConfig, h]

theorem checkDecode_eq_none_iff {rows : Nat} {s : State} :
    checkDecode rows s = none ↔ s.fmt.valid = true ∧ (1 ≤ rows ∧ rows ≤ 8) ∧ s.offset.toNat % 8 = 0 ∧
      s.fmt.required s.base rows ≤ s.bufLen.toNat := by
  rw [checkDecode, firstFault_eq_none_iff]
  simp only [List.forall_mem_cons, List.not_mem_nil, false_imp_iff, implies_true, and_true,
    Bool.not_eq_false', decide_eq_false_iff_not, State.misaligned_eq_false_iff, not_or, Nat.not_lt]

theorem checkEncode_eq_none_iff {s : State} :
    checkEncode s = none ↔ s.fmt.valid = true ∧ s.offset.toNat % 8 = 0 ∧ 64 ≤ s.pixLen.toNat ∧
      s.fmt.required s.base 8 ≤ s.bufLen.toNat := by
  rw [checkEncode, firstFault_eq_none_iff]
  simp only [List.forall_mem_cons, List.not_mem_nil, false_imp_iff, implies_true, and_true,
    Bool.not_eq_false', decide_eq_false_iff_not, State.misaligned_eq_false_iff, Nat.not_lt]

theorem checkEncz_eq_none_iff {s : State} :
    checkEncz s = none ↔ s.fmt.valid = true ∧ 64 ≤ s.pixLen.toNat ∧
      s.fmt.required 0 8 ≤ s.fmt.tileSize := by
  rw [checkEncz, firstFault_eq_none_iff]
  simp only [List.forall_mem_cons, List.not_mem_nil, false_imp_iff, implies_true, and_true,
    Bool.not_eq_false', decide_eq_false_iff_not, Nat.not_lt]

/-- required(0, 8) exceeds tileSize exactly when st >= 1 (R109). -/
theorem Fmt.required_le_tileSize_iff {f : Fmt}
    (h : f.bppNat = 1 ∨ f.bppNat = 2 ∨ f.bppNat = 4 ∨ f.bppNat = 8) (hst : -1 ≤ f.st) :
    f.required 0 8 ≤ f.tileSize ↔ f.st ≤ 0 := by
  have hp := Fmt.pitch_eq hst
  unfold Fmt.required Fmt.tileSize
  have hb : f.bpr = 1 ∨ f.bpr = 2 ∨ f.bpr = 4 ∨ f.bpr = 8 := h
  rcases hb with hb | hb | hb | hb <;> rw [hb] at hp ⊢ <;> push_cast at hp <;> omega

/-! ### Reads after the loops -/

theorem State.pixAt_unpack {f : Fmt}
    (h : f.bppNat = 1 ∨ f.bppNat = 2 ∨ f.bppNat = 4 ∨ f.bppNat = 8) (s : State) (read : Nat → Byte)
    (base rows n j : Nat) :
    ((s.setPixels (f.unpackRows read base rows s.pix) n).complete).pixAt j =
      if j < rows * 8 then
        f.extract (read (f.addr base (j / 8) (j % 8 / f.ppb))) (f.sub (j % 8 % f.ppb))
      else s.pixAt j := by
  simp only [State.pixAt, State.complete_pix, State.setPixels_pix, Fmt.lookup_unpackRows h]
  by_cases hj : j < rows * 8
  · simp [hj]
  · simp [hj, State.pixUnwritten]

theorem State.bufAt_setBuf (s : State) (m : Memory) (a : Nat) :
    (s.setBuf m).bufAt a = (Memory.lookup m a).getD (s.bufUnwritten a) := rfl

theorem State.bufAt_of_lookup {s : State} {a : Nat} {v : Byte} (h : Memory.lookup s.buf a = some v) :
    s.bufAt a = v := by simp [State.bufAt, h]

theorem State.bufAt_congr {s t : State} {a : Nat} (hd : t.draw = s.draw)
    (h : Memory.lookup t.buf a = Memory.lookup s.buf a) : t.bufAt a = s.bufAt a := by
  simp [State.bufAt, State.bufUnwritten, hd, h]

theorem State.pixAt_congr {s t : State} {a : Nat} (hd : t.draw = s.draw)
    (h : Memory.lookup t.pix a = Memory.lookup s.pix a) : t.pixAt a = s.pixAt a := by
  simp [State.pixAt, State.pixUnwritten, hd, h]

/-! ### What a legal state guarantees each command -/

/-- DECODE's accesses exist once its checks pass (R47). -/
theorem State.Inv.decode_accesses {s : State} (hi : s.Inv) {rows : Nat} (h : checkDecode rows s = none) :
    ∀ a ∈ s.fmt.walk s.base rows, a < s.cfg.bufSize := by
  obtain ⟨-, -, -, hreq⟩ := checkDecode_eq_none_iff.1 h
  exact Fmt.walk_lt (hreq.trans hi.bufLen)

/-- ENCODE's accesses exist once its checks pass (R47). -/
theorem State.Inv.encode_accesses {s : State} (hi : s.Inv) (h : checkEncode s = none) :
    ∀ a ∈ s.fmt.walk s.base 8, a < s.cfg.bufSize := by
  obtain ⟨-, -, -, hreq⟩ := checkEncode_eq_none_iff.1 h
  exact Fmt.walk_lt (hreq.trans hi.bufLen)

/-- tileSize is at most 64, hence at most BUF_SIZE (R6, R79). -/
theorem State.Inv.tileSize_le {s : State} (hi : s.Inv) (hv : s.fmt.valid = true) :
    s.fmt.tileSize ≤ 64 ∧ s.fmt.tileSize ≤ s.cfg.bufSize := by
  have h := (Fmt.legal_of_valid hi.fmt hv).1
  have hc := hi.cfg.1
  have : s.fmt.tileSize ≤ 64 := by
    unfold Fmt.tileSize Fmt.bpr
    omega
  exact ⟨this, this.trans hc⟩

/-- ENCZ's accesses exist once its checks pass (R47). -/
theorem State.Inv.encz_accesses {s : State} (hi : s.Inv) (h : checkEncz s = none) :
    ∀ a ∈ List.range s.fmt.tileSize ++ s.fmt.walk 0 8, a < s.cfg.bufSize := by
  obtain ⟨hv, -, hreq⟩ := checkEncz_eq_none_iff.1 h
  have hts := (hi.tileSize_le hv).2
  intro a ha
  rcases List.mem_append.1 ha with ha | ha
  · exact lt_of_lt_of_le (List.mem_range.1 ha) hts
  · exact Fmt.walk_lt (hreq.trans hts) a ha

end Sys2Proof.Machine
end

