-- ==== Sys2Proof/Laws/Decode.lean ====
section
/-! SUPPORT. Fields of a word as numbers, and the operands a decoded command carries. -/

namespace Sys2Proof

/-- A field as a number (R7). -/
theorem field_toNat (w : Word) (lo n : Nat) : (field w lo n).toNat = w.toNat / 2 ^ lo % 2 ^ n := by
  simp [field, BitVec.extractLsb'_toNat, Nat.shiftRight_eq_div_pow]

theorem field_eq_zero_iff (w : Word) (lo n : Nat) : field w lo n = 0#n ↔ w.toNat / 2 ^ lo % 2 ^ n = 0 := by
  rw [← BitVec.toNat_inj, field_toNat]
  simp

@[simp] theorem PixelOrdering.ofBit_bit (o : PixelOrdering) : PixelOrdering.ofBit o.bit = o := by
  cases o <;> rfl

@[simp] theorem PixelOrdering.bit_ofBit (b : BitVec 1) : (PixelOrdering.ofBit b).bit = b := by
  revert b; decide

/-- Every decoded command has one of these forms (R69). -/
theorem decode_cases {w : Word} {i : Instr} (h : decode w = .ok i) :
    ((field w 0 4).toNat = 1 ∧ field w 9 7 = 0#7 ∧
      i = .config (field w 4 4).toNat (.ofBit (field w 8 1)) (field w 16 16).toInt) ∨
    ((field w 0 4).toNat = 2 ∧ field w 8 24 = 0#24 ∧ i = .decode (field w 4 4).toNat) ∨
    ((field w 0 4).toNat = 3 ∧ field w 4 28 = 0#28 ∧ i = .encode) ∨
    ((field w 0 4).toNat = 4 ∧ field w 4 28 = 0#28 ∧ i = .encz) := by
  unfold decode at h
  split at h
  · by_cases hz : field w 9 7 = 0#7
    · rw [if_neg (by simp [hz])] at h
      exact .inl ⟨‹_›, hz, (Except.ok.inj h).symm⟩
    · rw [if_pos hz] at h; cases h
  · by_cases hz : field w 8 24 = 0#24
    · rw [if_neg (by simp [hz])] at h
      exact .inr (.inl ⟨‹_›, hz, (Except.ok.inj h).symm⟩)
    · rw [if_pos hz] at h; cases h
  · by_cases hz : field w 4 28 = 0#28
    · rw [if_neg (by simp [hz])] at h
      exact .inr (.inr (.inl ⟨‹_›, hz, (Except.ok.inj h).symm⟩))
    · rw [if_pos hz] at h; cases h
  · by_cases hz : field w 4 28 = 0#28
    · rw [if_neg (by simp [hz])] at h
      exact .inr (.inr (.inr ⟨‹_›, hz, (Except.ok.inj h).symm⟩))
    · rw [if_pos hz] at h; cases h
  · cases h

/-- A decoded CONFIG's operands fit their fields (R64). -/
theorem decode_config_bounds {w : Word} {nb : Nat} {no : PixelOrdering} {ns : Int}
    (h : decode w = .ok (.config nb no ns)) : nb ≤ 15 ∧ -32768 ≤ ns ∧ ns ≤ 32767 := by
  rcases decode_cases h with ⟨-, -, e⟩ | ⟨-, -, e⟩ | ⟨-, -, e⟩ | ⟨-, -, e⟩ <;> cases e
  have h1 := (field w 4 4).isLt
  have h2 := BitVec.toInt_lt (x := field w 16 16)
  have h3 := BitVec.le_toInt (x := field w 16 16)
  norm_num at h2 h3
  omega

end Sys2Proof
end

