-- ==== Sys2Proof/Laws/PerInstr.lean ====
section
/-! SUPPORT. Per-instruction families: `Opcode`, the row of the opcode map a command's word belongs to. -/

namespace Sys2Proof.Laws

open Sys2Proof

/-- The match and mask of a command in the opcode map (R65). -/
def Opcode.row : Instr → Word × Word
  | .config _ _ _ => (0x00000001#32, 0x0000FE0F#32)
  | .decode _ => (0x00000002#32, 0xFFFFFF0F#32)
  | .encode => (0x00000003#32, 0xFFFFFFFF#32)
  | .encz => (0x00000004#32, 0xFFFFFFFF#32)

/-- Family `Opcode`: whatever its operands, the command's word is selected by its own row of the opcode map
(R65), so its opcode is right and its reserved bits are 0. -/
def Opcode.Statement (i : Instr) : Prop := encode i &&& (Opcode.row i).2 = (Opcode.row i).1

theorem Opcode.config (bpp : Nat) (ord : PixelOrdering) (stride : Int) :
    Opcode.Statement (.config bpp ord stride) := by
  have key : ∀ (a : BitVec 16) (o : BitVec 1) (b : BitVec 4),
      (a ++ 0#7 ++ o ++ b ++ 1#4 : Word) &&& 0x0000FE0F#32 = 0x00000001#32 := by
    intro a o b
    apply BitVec.eq_of_getLsbD_eq
    intro n hn
    rw [BitVec.getLsbD_and]
    simp only [BitVec.getLsbD_append]
    interval_cases n <;> first | rfl | exact Bool.and_false _
  exact key _ _ _

theorem Opcode.decode (rows : Nat) : Opcode.Statement (.decode rows) := by
  have key : ∀ b : BitVec 4, (0#24 ++ b ++ 2#4 : Word) &&& 0xFFFFFF0F#32 = 0x00000002#32 := by decide
  exact key _

theorem Opcode.encode : Opcode.Statement .encode := rfl

theorem Opcode.encz : Opcode.Statement .encz := rfl

end Sys2Proof.Laws
end

