-- ==== Sys2Proof/Laws/Port.lean ====
section
/-! SUPPORT. The host port: which target each address reaches, and everything a step can do. -/

namespace Sys2Proof.Machine

open Sys2Proof

/-- An aligned 4-byte access at a register's offset reaches that register (R39, R40). -/
@[simp] theorem target_reg (cfg : Config) (r : Reg) : target cfg r.addr.toNat 4 = some (.reg r) := by
  cases r <;> rfl

/-- A byte of the PIX window (R44). -/
theorem target_pixByte (cfg : Config) {j : Nat} (hj : j < 64) :
    target cfg (0x1000 + j) 1 = some (.pixByte j) := by
  unfold target pixBase windowTarget
  rw [if_neg (by omega), if_pos (by omega), if_pos (by omega)]
  simp

/-- A word of the PIX window (R44). -/
theorem target_pixWord (cfg : Config) {j : Nat} (hj : j < 64) (ha : j % 4 = 0) :
    target cfg (0x1000 + j) 4 = some (.pixWord j) := by
  unfold target pixBase windowTarget
  rw [if_neg (by omega), if_pos (by omega), if_neg (by omega), if_pos (by omega)]
  simp

/-- A byte of the BUF window (R45). -/
theorem target_bufByte (cfg : Config) {j : Nat} (hj : j < cfg.bufSize) :
    target cfg (0x80000000 + j) 1 = some (.bufByte j) := by
  unfold target pixBase bufBase windowTarget
  rw [if_neg (by omega), if_neg (by omega), if_pos (by omega), if_pos (by omega)]
  simp

/-- A word of the BUF window (R45). -/
theorem target_bufWord (cfg : Config) {j : Nat} (hj : j + 3 < cfg.bufSize) (ha : j % 4 = 0) :
    target cfg (0x80000000 + j) 4 = some (.bufWord j) := by
  unfold target pixBase bufBase windowTarget
  rw [if_neg (by omega), if_neg (by omega), if_pos (by omega), if_neg (by omega), if_pos (by omega)]
  simp

/-- Only a 4-byte access at offset 0 reaches CMD (R18, R39). -/
theorem eq_zero_of_target_cmd {cfg : Config} {a n : Nat} (h : target cfg a n = some (.reg .cmd)) :
    a = 0 ∧ n = 4 := by
  unfold target windowTarget at h
  split at h
  · split at h
    · rename_i ha hn
      have hq : a / 4 < 10 := by omega
      obtain ⟨q, hq', hqe⟩ : ∃ q, q < 10 ∧ a / 4 = q := ⟨_, hq, rfl⟩
      rw [hqe] at h
      interval_cases q <;> simp [Reg.ofIndex] at h
      omega
    · cases h
  · repeat' split at h
    all_goals simp at h

/-- The window index a target carries is inside its window (R41). -/
theorem target_bounds {cfg : Config} {a n : Nat} {t : Target} (h : target cfg a n = some t) :
    match t with
    | .reg _ => True
    | .pixByte j => j < 64
    | .pixWord j => j + 3 < 64
    | .bufByte b => b < cfg.bufSize
    | .bufWord b => b + 3 < cfg.bufSize := by
  unfold target windowTarget at h
  repeat' split at h
  all_goals
    first
      | (cases h; done)
      | (obtain ⟨r, -, rfl⟩ := Option.map_eq_some_iff.1 h; trivial)
      | (cases h; simp only; omega)

/-- The admitted transactions are those R40 and R41 list. -/
theorem target_isSome_iff {c : Config} (hc : c.wf) (a n : Nat) :
    (∃ t, target c a n = some t) ↔ Admitted c.bufSize a n := by
  obtain ⟨h1, h2⟩ := hc
  unfold target windowTarget pixBase bufBase Admitted
  split
  · split
    · obtain ⟨q, hq, e⟩ : ∃ q, q < 10 ∧ a / 4 = q := ⟨a / 4, by omega, rfl⟩
      rw [e]
      constructor
      · intro _; left; omega
      · intro _; interval_cases q <;> simp [Reg.ofIndex]
    · simp; omega
  · repeat' split
    all_goals simp; omega

/-- The two halves of an append as a number. -/
theorem toNat_shiftLeft_or {x y n : Nat} (h : y < 2 ^ n) : x <<< n ||| y = x * 2 ^ n + y := by
  rw [Nat.shiftLeft_eq, Nat.mul_comm]
  exact (Nat.two_pow_add_eq_or_of_lt h x).symm

/-- A 4-byte read as a number: little-endian (R43). -/
theorem toNat_readWord (f : Nat → Byte) (j : Nat) :
    (readWord f j).toNat = (f j).toNat + 256 * (f (j + 1)).toNat + 65536 * (f (j + 2)).toNat +
      16777216 * (f (j + 3)).toNat := by
  have h0 := (f j).isLt
  have h1 := (f (j + 1)).isLt
  have h2 := (f (j + 2)).isLt
  unfold readWord
  simp only [BitVec.toNat_append]
  (repeat rw [toNat_shiftLeft_or (by omega)])
  omega

/-! ### Steps -/

@[simp] theorem onNext_next (t : State) (f : State → State) : onNext (.next t) f = .next (f t) := rfl

theorem onNext_eq_next_iff {o : Result} {f : State → State} {t : State} :
    onNext o f = .next t ↔ ∃ u, o = .next u ∧ t = f u := by
  cases o <;> simp [onNext, eq_comm]

/-- A read event is a host read. -/
theorem step_read {s : State} {a : Word} {n : Nat} {rest : List HostEvent} (h : s.host = .read a n :: rest) :
    step s = .next (hostRead a n (s.takeEvent rest)) := by
  unfold step; rw [h]; rfl

/-- A write event is a host write. -/
theorem step_write {s : State} {a w : Word} {n : Nat} {rest : List HostEvent}
    (h : s.host = .write a n w :: rest) : step s = hostWrite a n w (s.takeEvent rest) := by
  unfold step; rw [h]; rfl

/-- A CMD write executes its word, then answers OKAY (R18, R69, R117). -/
theorem step_cmd {s : State} {w : Word} {rest : List HostEvent}
    (h : s.host = .write 0x000#32 4 w :: rest) :
    step s = onNext (executeWord w (s.takeEvent rest)) (fun t => t.respond (.write .okay)) := by
  unfold step
  rw [h]
  rfl

/-- Everything a step that goes on can do. -/
theorem step_cases {s t : State} (h : step s = .next t) :
    (s.host = [] ∧ t = s) ∨
    ∃ e rest, s.host = e :: rest ∧
      ((∃ a n, e = .read a n ∧ t = hostRead a n (s.takeEvent rest)) ∨
       (∃ w u, e = .write 0x000#32 4 w ∧ executeWord w (s.takeEvent rest) = .next u ∧
          t = u.respond (.write .okay)) ∨
       (∃ a n w g, e = .write a n w ∧ target s.cfg a.toNat n = some g ∧ g ≠ .reg .cmd ∧
          t = ((s.takeEvent rest).writeTarget g w).respond (.write .okay)) ∨
       (∃ a n w, e = .write a n w ∧ target s.cfg a.toNat n = none ∧
          t = (s.takeEvent rest).respond (.write .slverr)) ∨
       ((e = .reset ∨ ∃ w, e = .resetDuringCmd w) ∧ t = (s.takeEvent rest).afterReset)) := by
  unfold step at h
  split at h
  · rename_i hh
    exact .inl ⟨hh, (Host.Outcome.next.inj h).symm⟩
  · rename_i e rest hh
    refine .inr ⟨e, rest, hh, ?_⟩
    cases e with
    | read a n => exact .inl ⟨a, n, rfl, (Host.Outcome.next.inj h).symm⟩
    | reset => exact .inr (.inr (.inr (.inr ⟨.inl rfl, (Host.Outcome.next.inj h).symm⟩)))
    | resetDuringCmd w =>
      exact .inr (.inr (.inr (.inr ⟨.inr ⟨w, rfl⟩, (Host.Outcome.next.inj h).symm⟩)))
    | write a n w =>
      simp only [perform, hostWrite, State.takeEvent_cfg] at h
      split at h
      · rename_i htar
        obtain ⟨ha, rfl⟩ := eq_zero_of_target_cmd htar
        obtain rfl : a = 0x000#32 := by rw [← BitVec.toNat_inj, ha]; rfl
        obtain ⟨u, hu, rfl⟩ := onNext_eq_next_iff.1 h
        exact .inr (.inl ⟨w, u, rfl, hu, rfl⟩)
      · rename_i g hne htar
        exact .inr (.inr (.inl ⟨a, n, w, g, rfl, htar, hne, (Host.Outcome.next.inj h).symm⟩))
      · rename_i htar
        exact .inr (.inr (.inr (.inl ⟨a, n, w, rfl, htar, (Host.Outcome.next.inj h).symm⟩)))

end Sys2Proof.Machine
end

