-- ==== Sys2Proof/Tests/Slice0.lean ====
section
/-! SUPPORT. Tests: words written out bit by bit from 30_encoding.md, single steps with the expected values of
95_test_vectors.md, the WellFormed smoke tests, and for every statement that has hypotheses a witness that
meets them all. -/

namespace Sys2Proof.Tests

open Sys2Proof Sys2Proof.Machine

/-! ### Helpers -/

/-- `n` bytes from address 0. -/
def bytes (n : Nat) (f : Nat → Nat) : Memory := (List.range n).map fun a => (a, BitVec.ofNat 8 (f a))

/-- A state with a latched format, in a block whose BUF_SIZE is 64, the least R6 allows. -/
def lit (bpp : Nat) (ord : PixelOrdering) (st : Int) (offset bufLen pixLen : Nat) (pix buf : Memory)
    (host : List HostEvent := []) : State :=
  { State.reset with
    fmt := { valid := true, bpp := BitVec.ofNat 4 bpp, ord := ord, stride := BitVec.ofInt 16 st }
    offset := BitVec.ofNat 32 offset
    bufLen := BitVec.ofNat 32 bufLen
    pixLen := BitVec.ofNat 7 pixLen
    pix := pix
    buf := buf
    cfg := { bufSize := 64 }
    host := host }

/-- The next state, as something that evaluates. -/
def after (o : Result) (d : State) : State :=
  match o with
  | .next t => t
  | .fault _ => d
  | .refused _ => d

/-- The error code of the next state, if the step goes on. -/
def errOf (o : Result) : Option (BitVec 4) :=
  match o with
  | .next t => some t.err
  | .fault _ => none
  | .refused _ => none

theorem next_of_errOf {o : Result} {e : BitVec 4} (h : errOf o = some e) : ∃ t, o = .next t ∧ t.err = e := by
  cases o with
  | next t => exact ⟨t, rfl, Option.some.inj h⟩
  | fault r => cases h
  | refused r => cases h

theorem wf_bytes {n size : Nat} (f : Nat → Nat) (h : n ≤ size) : Memory.wf size (bytes n f) := by
  constructor
  · simpa [bytes, List.pairwise_map] using List.pairwise_lt_range
  · intro c hc
    obtain ⟨a, ha, rfl⟩ := List.mem_map.1 hc
    exact lt_of_lt_of_le (List.mem_range.1 ha) h

/-- A legal state of the form `lit`, its memories filled from address 0. -/
theorem lit_inv {bpp : Nat} {ord : PixelOrdering} {st : Int} {offset bufLen pixLen n m : Nat} {f g : Nat → Nat}
    {host : List HostEvent} (hn : n ≤ 64) (hm : m ≤ 64)
    (hf : (lit bpp ord st offset bufLen pixLen [] []).fmt.legal)
    (hb : (BitVec.ofNat 32 bufLen).toNat ≤ 64) (hp : (BitVec.ofNat 7 pixLen).toNat ≤ 64) :
    (lit bpp ord st offset bufLen pixLen (bytes n f) (bytes m g) host).Inv :=
  ⟨(by decide : Config.wf ⟨64⟩), Nat.zero_le _, hf, hb, hp, wf_bytes f hn, wf_bytes g hm⟩

/-! ### WellFormed: one ill-formed term for each check (R70) -/

theorem test_wellFormed_refuses_bpp : ¬ (Instr.config 16 .inOrder 0).WellFormed := by decide
theorem test_wellFormed_refuses_stride_below : ¬ (Instr.config 4 .inOrder (-32769)).WellFormed := by decide
theorem test_wellFormed_refuses_stride_above : ¬ (Instr.config 4 .inOrder 32768).WellFormed := by decide
theorem test_wellFormed_refuses_rows : ¬ (Instr.decode 16).WellFormed := by decide

/-! ### Decoding: words written out from the patterns of R60 to R63 -/

/-- `SSSSSSSSSSSSSSSS0000000OBBBB0001`, S = 1111111111111111, O = 1, B = 0100: CONFIG 4, REV, -1. -/
theorem test_decode_config :
    decode 0b11111111111111110000000101000001#32 = .ok (.config 4 .reverseOrder (-1)) := by decide

/-- CC11: CONFIG 4, IN, -32768, the least stride the field holds. -/
theorem test_decode_config_least_stride : decode 0x80000041#32 = .ok (.config 4 .inOrder (-32768)) := by decide

/-- `000000000000000000000000RRRR0010`, R = 1000: DECODE 8. -/
theorem test_decode_decode : decode 0b00000000000000000000000010000010#32 = .ok (.decode 8) := by decide

/-- DF4: DECODE 15 decodes; its row count is refused only when it executes (R64). -/
theorem test_decode_decode_illegal_rows : decode 0x000000F2#32 = .ok (.decode 15) := by decide

theorem test_decode_encode : decode 0b00000000000000000000000000000011#32 = .ok .encode := by decide
theorem test_decode_encz : decode 0b00000000000000000000000000000100#32 = .ok .encz := by decide

/-- Illegal words: IL1 to IL8, CC12 and CC13. -/
theorem test_decode_refuses :
    decode 0x00000000#32 = .error .reservedOpcode ∧ decode 0x00000005#32 = .error .reservedOpcode ∧
    decode 0x0000000F#32 = .error .reservedOpcode ∧ decode 0x00000182#32 = .error .reservedBits ∧
    decode 0x00001002#32 = .error .reservedBits ∧ decode 0x00000013#32 = .error .reservedBits ∧
    decode 0x00000014#32 = .error .reservedBits ∧ decode 0x80000003#32 = .error .reservedBits ∧
    decode 0x00000241#32 = .error .reservedBits ∧ decode 0x00008241#32 = .error .reservedBits := by decide

/-- The words of R72. -/
theorem test_encode_config : encode (.config 1 .reverseOrder 2) = 0x00020111#32 := by decide
theorem test_encode_decode : encode (.decode 4) = 0x00000042#32 := by decide

/-- The host's view of the decoder, on the opcode table's own words. -/
theorem test_decodeTableWord :
    decodeTableWord 32 1 = some (.config 0 .inOrder 0) ∧ decodeTableWord 32 2 = some (.decode 0) ∧
    decodeTableWord 32 3 = some .encode ∧ decodeTableWord 32 4 = some .encz ∧
    decodeTableWord 32 5 = none ∧ decodeTableWord 32 (2 ^ 32 + 3) = none := by decide

/-- A placed word is what the next step runs: DECODE 8 from reset faults with NoFormat (R137). -/
theorem test_withFetchWord : errOf (step (State.reset.withFetchWord 32 0x82)) = some 4#4 := by decide

/-! ### CONFIG -/

/-- CC3: CONFIG 4, REV, 1 from reset. -/
theorem test_config_latches :
    let t := after (exec (.config 4 .reverseOrder 1) State.reset) State.reset
    t.readReg .status = 0x00000000#32 ∧ t.readReg .fmt = 0x00010114#32 ∧ t.readReg .geom = 0x08200F24#32 := by
  decide

/-- CC10: CONFIG 4, IN, -2 from reset. -/
theorem test_config_refuses :
    let t := after (exec (.config 4 .inOrder (-2)) State.reset) State.reset
    t.readReg .status = 0x00000101#32 ∧ t.readReg .fmt = 0#32 ∧ t.readReg .geom = 0#32 := by decide

/-! ### DECODE -/

/-- L1.2 and DD3: 4 bpp InOrder 0xAB, and 2 bpp InOrder E4 1B. -/
theorem test_decode_inOrder :
    let t := after (exec (.decode 8) (lit 4 .inOrder 0 0 32 0 [] ((0, 0xAB#8) :: (bytes 32 (fun _ => 0)).tail)))
      State.reset
    t.err = 0#4 ∧ t.pixAt 0 = 0x0A#8 ∧ t.pixAt 1 = 0x0B#8 ∧ t.pixAt 2 = 0#8 ∧ t.pixLen = 64#7 := by
  decide +kernel

/-- L1.4: 4 bpp, stride 1, BUF[a] = a: row 1 starts at byte 8. -/
theorem test_decode_skips_padding :
    let t := after (exec (.decode 2) (lit 4 .inOrder 1 0 64 0 [] (bytes 64 id))) State.reset
    t.err = 0#4 ∧ t.pixAt 8 = 0#8 ∧ t.pixAt 9 = 8#8 ∧ t.pixAt 15 = 11#8 ∧ t.pixLen = 16#7 := by
  decide +kernel

/-! ### ENCODE -/

/-- EE1 and EE2: PIX[0..7] = 1..8, InOrder 12 34 56 78, ReverseOrder 21 43 65 87. -/
theorem test_encode_packs :
    let pix := bytes 64 (fun j => if j < 8 then j + 1 else 0)
    let t := after (exec .encode (lit 4 .inOrder 0 0 64 64 pix (bytes 64 (fun _ => 0xCC)))) State.reset
    let u := after (exec .encode (lit 4 .reverseOrder 0 0 64 64 pix (bytes 64 (fun _ => 0xCC)))) State.reset
    t.bufAt 0 = 0x12#8 ∧ t.bufAt 3 = 0x78#8 ∧ t.bufAt 31 = 0#8 ∧ t.bufAt 32 = 0xCC#8 ∧
      u.bufAt 0 = 0x21#8 ∧ u.bufAt 3 = 0x87#8 := by decide +kernel

/-- EE8: 4 bpp, stride -1, PIX[8r + c] = r: row 7 wins. -/
theorem test_encode_last_row_wins :
    let t := after (exec .encode
      (lit 4 .inOrder (-1) 0 64 64 (bytes 64 (fun j => j / 8)) (bytes 64 (fun _ => 0xCC)))) State.reset
    t.bufAt 0 = 0x77#8 ∧ t.bufAt 3 = 0x77#8 ∧ t.bufAt 4 = 0xCC#8 := by decide +kernel

/-! ### ENCZ -/

/-- ZZ1: 2 bpp ReverseOrder, PIX[0..3] = 1, 2, 3, 0. -/
theorem test_encz_fresh_buffer :
    let pix := bytes 64 (fun j => if j < 3 then j + 1 else 0)
    let t := after (exec .encz (lit 2 .reverseOrder 0 0 0 64 pix (bytes 64 (fun _ => 0xCC)))) State.reset
    t.err = 0#4 ∧ t.bufLen = 16#32 ∧ t.bufAt 0 = 0x39#8 ∧ t.bufAt 1 = 0#8 ∧ t.bufAt 15 = 0#8 ∧
      t.bufAt 16 = 0xCC#8 := by decide +kernel

/-- ZZ2: 4 bpp, stride 1: 60 bytes required, 32 available. -/
theorem test_encz_too_short :
    let t := after (exec .encz (lit 4 .inOrder 1 0 60 64 [] [])) State.reset
    t.readReg .status = 0x00000102#32 ∧ t.errReq = 60#32 ∧ t.errAvail = 32#32 ∧ t.bufLen = 60#32 := by decide

/-! ### The host port -/

/-- R43, R44: a 4-byte write of the PIX window is little-endian. -/
theorem test_pix_window_little_endian :
    let t := after (step { State.reset with host := [.write 0x1000#32 4 0x44332211#32] }) State.reset
    t.pixAt 0 = 0x11#8 ∧ t.pixAt 3 = 0x44#8 ∧ t.responses = [.write .okay] := by decide

/-- R40: an 8-bit write to CMD is refused and executes nothing. -/
theorem test_cmd_byte_write_refused :
    step { State.reset with host := [.write 0x000#32 1 0x41#32] } =
      .next { State.reset with responses := [.write .slverr] } := rfl

/-- R39: the register offsets. -/
theorem test_register_map :
    [Reg.cmd, .status, .fmt, .geom, .offset, .bufLen, .pixLen, .errReq, .errAvail, .bufsz].map Reg.addr =
      [0x000#32, 0x004#32, 0x008#32, 0x00C#32, 0x010#32, 0x014#32, 0x018#32, 0x01C#32, 0x020#32, 0x024#32] := by
  decide

/-! ### Witnesses -/

/-- A legal state for the round trips: 1 bpp, PIX in range, eight bytes of BUF, nothing left over. -/
def small (st : Int) (host : List HostEvent) : State :=
  lit 1 .inOrder st 0 8 64 (bytes 64 (· % 2)) (bytes 8 (3 * ·)) host

/-- The largest format at the edge of the smallest block: 8 bpp in 64 bytes. -/
def large (st : Int) (pixLen : Nat) (host : List HostEvent) : State :=
  lit 8 .reverseOrder st 0 64 pixLen (bytes 64 id) (bytes 64 id) host

theorem witness_small_inv : (small 0 []).Inv ∧ (small (-1) []).Inv ∧ (small 1 []).Inv := by
  refine ⟨lit_inv ?_ ?_ ?_ ?_ ?_, lit_inv ?_ ?_ ?_ ?_ ?_, lit_inv ?_ ?_ ?_ ?_ ?_⟩ <;> decide

theorem witness_large_inv : (large 0 64 []).Inv ∧ (large (-1) 64 []).Inv ∧ (large 32767 64 []).Inv ∧
    (large 0 63 []).Inv ∧ (large 0 0 []).Inv := by
  refine ⟨lit_inv ?_ ?_ ?_ ?_ ?_, lit_inv ?_ ?_ ?_ ?_ ?_, lit_inv ?_ ?_ ?_ ?_ ?_, lit_inv ?_ ?_ ?_ ?_ ?_,
    lit_inv ?_ ?_ ?_ ?_ ?_⟩ <;> decide

theorem witness_reset_inv : State.reset.Inv :=
  ⟨by decide, by decide, by decide, by decide, by decide, by decide, by decide⟩

theorem witness_IllegalWordFaultsInStatusOnly :
    ∃ (w : Word) (e : Illegal) (s : State), decode w = .error e ∧ s.host = .write 0x000#32 4 w :: [] :=
  ⟨0xFFFFFF05#32, .reservedOpcode, { State.reset with host := [.write 0x000#32 4 0xFFFFFF05#32] }, by decide, rfl⟩

theorem witness_OperandsAreTheWordsFields :
    ((0x800001F1#32 : Word).toNat % 16 = 1 ∧ (0x800001F1#32 : Word).toNat / 512 % 128 = 0) ∧
    ((0x000000F2#32 : Word).toNat % 16 = 2 ∧ (0x000000F2#32 : Word).toNat / 256 = 0) := by decide

theorem witness_DecodeOfEncodeIsIdentity :
    (Instr.config 15 .reverseOrder (-32768)).WellFormed ∧ (Instr.config 0 .inOrder 32767).WellFormed ∧
    (Instr.decode 15).WellFormed ∧ Instr.encode.WellFormed ∧ Instr.encz.WellFormed := by decide

theorem witness_EncodeOfDecodeIsIdentity :
    decode 0x7FFF01F1#32 = .ok (.config 15 .reverseOrder 32767) ∧ decode 0x00000002#32 = .ok (.decode 0) := by
  decide

theorem witness_AssemblerExpansions :
    (Instr.decode 15).WellFormed ∧ ¬ (Instr.decode 16).WellFormed ∧ 15 ≤ 15 := by decide

theorem witness_StepRunsTheDecodedCommand :
    ∃ (s : State) (w : Word) (i : Instr), s.host = .write 0x000#32 4 w :: [] ∧ decode w = .ok i :=
  ⟨small 0 [.write 0x000#32 4 0x82#32], 0x82#32, .decode 8, rfl, by decide⟩

theorem witness_IdleHostKeepsState : State.reset.host = [] := rfl

theorem witness_ResetEventRestoresRegisters :
    (∃ s : State, ∃ e rest, s.host = e :: rest ∧ e = .reset) ∧
    (∃ s : State, ∃ e rest w, s.host = e :: rest ∧ e = .resetDuringCmd w) :=
  ⟨⟨small 0 [.reset], _, _, rfl, rfl⟩, ⟨small 0 [.resetDuringCmd 3#32], _, _, _, rfl, rfl⟩⟩

theorem witness_EveryStepKeepsLegalStates :
    ∃ s t : State, s.Inv ∧ step s = .next t := by
  have hi : (small 0 [.write 0x000#32 4 3#32]).Inv :=
    lit_inv (by decide) (by decide) (by decide) (by decide) (by decide)
  obtain ⟨t, ht, -⟩ := next_of_errOf
    (show errOf (step (small 0 [.write 0x000#32 4 3#32])) = some 0#4 by decide +kernel)
  exact ⟨_, t, hi, ht⟩

theorem witness_ConfigLatchesTheFormat :
    ((1 = 1 ∨ 1 = 2 ∨ 1 = 4 ∨ 1 = 8) ∧ (-1 : Int) ≤ -1 ∧ (-1 : Int) ≤ 32767) ∧
    ((8 = 1 ∨ 8 = 2 ∨ 8 = 4 ∨ 8 = 8) ∧ (-1 : Int) ≤ 32767 ∧ (32767 : Int) ≤ 32767) := by decide

theorem witness_ConfigAcceptsExactlyLegalFormats :
    (8 ≤ 15 ∧ (8 = 1 ∨ 8 = 2 ∨ 8 = 4 ∨ 8 = 8) ∧ (-1 : Int) ≤ -1) ∧
    (0 ≤ 15 ∧ ¬((0 = 1 ∨ 0 = 2 ∨ 0 = 4 ∨ 0 = 8) ∧ (-1 : Int) ≤ 0)) ∧
    (4 ≤ 15 ∧ ¬((4 = 1 ∨ 4 = 2 ∨ 4 = 4 ∨ 4 = 8) ∧ (-1 : Int) ≤ -2)) ∧
    decode 0x7FFF0081#32 = .ok (.config 8 .inOrder 32767) := by decide

theorem witness_DerivedFieldsTable : Fmt.reset.valid = false := rfl

/-- One event of each clause: a CONFIG that latches another format, one that faults, and a reset. -/
theorem witness_FormatChangesOnlyByConfigOrReset :
    (∃ (s t : State) (e : HostEvent), s.host = [e] ∧ step s = .next t ∧ t.fmt ≠ s.fmt ∧
      s.fmt.valid = false ∧ t.fmt.valid = true) ∧
    (∃ (s t : State) (e : HostEvent) (w : Word), s.host = [e] ∧ step s = .next t ∧ e = .write 0x000#32 4 w ∧
      decode w = .ok (.config 3 .inOrder 0) ∧ t.err ≠ 0#4) ∧
    (∃ (s t : State) (e : HostEvent), s.host = [e] ∧ step s = .next t ∧ s.fmt.valid = true ∧
      t.fmt.valid = false) :=
  ⟨⟨{ State.reset with host := [.write 0x000#32 4 0x41#32] }, _, _, rfl, rfl, by decide, rfl, rfl⟩,
    ⟨{ State.reset with host := [.write 0x000#32 4 0x31#32] }, _, _, 0x31#32, rfl, rfl, rfl, by decide, by decide⟩,
    ⟨small 0 [.reset], _, _, rfl, rfl, rfl, rfl⟩⟩

theorem witness_NoFormatUntilConfig :
    State.reset.fmt.valid = false ∧ (∃ t, exec .encode State.reset = .next t) ∧
    (∃ t, exec (.config 4 .inOrder 0) State.reset = .next t) :=
  ⟨rfl, ⟨_, rfl⟩, ⟨_, rfl⟩⟩

/-- RowPitchFollowsTheStride, WalkedAddresses, RequiredLength, ExtractedPixelIsItsBitGroup and
PackedByteHoldsEachPixel: latched formats at stride 0, 32767 and -1, and an extreme of every range. -/
theorem witness_latched_formats :
    ((small 0 []).fmt.latched ∧ (small 0 []).fmt.st = 0) ∧
    ((large 32767 64 []).fmt.latched ∧ 0 < (large 32767 64 []).fmt.st) ∧
    ((small (-1) []).fmt.latched ∧ (small (-1) []).fmt.st = -1 ∧ (small (-1) []).fmt.st ≤ 0) ∧
    (1 ≤ 1 ∧ 1 ≤ 8 ∧ 1 ≤ 8 ∧ 8 ≤ 8) ∧
    (63 ∈ (large 0 64 []).fmt.walk 0 8) ∧
    (7 < (small 0 []).fmt.ppb ∧ 7 < 8 / (small 0 []).fmt.bppNat) ∧ 0 < (large 0 64 []).fmt.ppb := by
  decide +kernel

/-- DecodeUnpacksRows, at the least and the largest number of rows, the length just enough. -/
theorem witness_DecodeUnpacksRows :
    ∀ rows ∈ [1, 8], (large 0 0 []).Inv ∧ (large 0 0 []).fmt.valid = true ∧ 1 ≤ rows ∧ rows ≤ 8 ∧
      (large 0 0 []).offset.toNat % 8 = 0 ∧
      (large 0 0 []).fmt.required ((large 0 0 []).offset.toNat / 8) rows ≤ (large 0 0 []).bufLen.toNat := by
  have h : ∀ rows ∈ [1, 8], (large 0 0 []).fmt.valid = true ∧ 1 ≤ rows ∧ rows ≤ 8 ∧
      (large 0 0 []).offset.toNat % 8 = 0 ∧
      (large 0 0 []).fmt.required ((large 0 0 []).offset.toNat / 8) rows ≤ (large 0 0 []).bufLen.toNat := by
    decide +kernel
  exact fun rows hr => ⟨witness_large_inv.2.2.2.2, h rows hr⟩

/-- DecodedPixelsAreInRange, NegativeStrideRepeatsRowZero and CommandsAreIdempotent: a completed DECODE. -/
theorem witness_completed_decode :
    ∃ t, (small (-1) []).Inv ∧ (small (-1) []).fmt.st = -1 ∧ exec (.decode 8) (small (-1) []) = .next t ∧
      t.err = 0#4 ∧ 7 < 8 := by
  obtain ⟨t, ht, he⟩ := next_of_errOf (show errOf (exec (.decode 8) (small (-1) [])) = some 0#4 by decide +kernel)
  exact ⟨t, witness_small_inv.2.1, by decide, ht, he, by decide⟩

/-- PartialDecodeBlocksEncode, at seven rows. -/
theorem witness_PartialDecodeBlocksEncode :
    ∃ t, (small 0 []).Inv ∧ exec (.decode 7) (small 0 []) = .next t ∧ t.err = 0#4 ∧ 7 < 8 := by
  obtain ⟨t, ht, he⟩ := next_of_errOf (show errOf (exec (.decode 7) (small 0 [])) = some 0#4 by decide +kernel)
  exact ⟨t, witness_small_inv.1, ht, he, by decide⟩

/-- DecodeFaultPriority: rows 0 and 9; OFFSET = 7; one byte too short (L1.3). -/
theorem witness_DecodeFaultPriority :
    ((small 0 []).fmt.valid = true ∧ (0 = 0 ∨ 8 < 0) ∧ (9 = 0 ∨ 8 < 9)) ∧
    ((lit 4 .inOrder 0 7 64 0 [] [] []).fmt.valid = true ∧ (lit 4 .inOrder 0 7 64 0 [] [] []).offset.toNat % 8 ≠ 0) ∧
    ((lit 8 .inOrder 0 0 63 0 [] [] []).fmt.valid = true ∧ (lit 8 .inOrder 0 0 63 0 [] [] []).offset.toNat % 8 = 0 ∧
      (lit 8 .inOrder 0 0 63 0 [] [] []).bufLen.toNat < (lit 8 .inOrder 0 0 63 0 [] [] []).fmt.required 0 8) := by
  decide

/-- DecodeReadsOnlyWalkedBytes: a second BUF that differs from the first just after the walked bytes. -/
theorem witness_DecodeReadsOnlyWalkedBytes :
    ∃ (s t : State) (buf : Memory), buf ≠ s.buf ∧
      (∀ a ∈ s.fmt.walk (s.offset.toNat / 8) 8, ({ s with buf := buf } : State).bufAt a = s.bufAt a) ∧
      exec (.decode 8) s = .next t := by
  obtain ⟨t, ht, -⟩ := next_of_errOf (show errOf (exec (.decode 8) (small 0 [])) = some 0#4 by decide +kernel)
  exact ⟨small 0 [], t, bytes 9 (3 * ·), by decide +kernel, by decide +kernel, ht⟩

/-- EncodePacksTheTile, for st >= 0 and st = -1, the length just enough. -/
theorem witness_EncodePacksTheTile :
    ∀ s ∈ [large 0 64 [], large (-1) 64 []], s.Inv ∧ s.fmt.valid = true ∧ s.offset.toNat % 8 = 0 ∧
      s.pixLen.toNat = 64 ∧ s.fmt.required (s.offset.toNat / 8) 8 ≤ s.bufLen.toNat ∧
      (0 ≤ s.fmt.st ∨ s.fmt.st = -1) := by
  intro s hs
  have hi : s.Inv := by
    simp only [List.mem_cons, List.not_mem_nil, or_false] at hs
    rcases hs with rfl | rfl
    · exact witness_large_inv.1
    · exact witness_large_inv.2.1
  have h : ∀ s ∈ [large 0 64 [], large (-1) 64 []], s.fmt.valid = true ∧ s.offset.toNat % 8 = 0 ∧
      s.pixLen.toNat = 64 ∧ s.fmt.required (s.offset.toNat / 8) 8 ≤ s.bufLen.toNat ∧
      (0 ≤ s.fmt.st ∨ s.fmt.st = -1) := by decide +kernel
  exact ⟨hi, h s hs⟩

/-- EncodeFaultPriority: OFFSET = 1; 63 pixels (EE9); one byte too short (EE12). -/
theorem witness_EncodeFaultPriority :
    ((lit 4 .inOrder 0 1 64 64 [] [] []).fmt.valid = true ∧ (lit 4 .inOrder 0 1 64 64 [] [] []).offset.toNat % 8 ≠ 0) ∧
    ((lit 4 .inOrder 0 0 64 63 [] [] []).offset.toNat % 8 = 0 ∧ (lit 4 .inOrder 0 0 64 63 [] [] []).pixLen.toNat < 64) ∧
    ((lit 4 .inOrder 1 0 59 64 [] [] []).offset.toNat % 8 = 0 ∧ 64 ≤ (lit 4 .inOrder 1 0 59 64 [] [] []).pixLen.toNat ∧
      (lit 4 .inOrder 1 0 59 64 [] [] []).bufLen.toNat < (lit 4 .inOrder 1 0 59 64 [] [] []).fmt.required 0 8) := by
  decide

/-- EnczPacksAFreshBuffer and EnczCompletesOnlyUpToStrideZero: strides -1, 0 and, for the fault, 32767. -/
theorem witness_encz :
    ((large (-1) 64 []).Inv ∧ (large (-1) 64 []).fmt.valid = true ∧ (large (-1) 64 []).pixLen.toNat = 64 ∧
      (large (-1) 64 []).fmt.st = -1) ∧
    ((large 0 64 []).Inv ∧ (large 0 64 []).fmt.valid = true ∧ (large 0 64 []).pixLen.toNat = 64 ∧
      (large 0 64 []).fmt.st = 0) ∧
    ((large 32767 64 []).Inv ∧ (large 32767 64 []).fmt.valid = true ∧ (large 32767 64 []).pixLen.toNat = 64 ∧
      1 ≤ (large 32767 64 []).fmt.st) ∧
    ((small 1 []).Inv ∧ (small 1 []).fmt.valid = true ∧ (small 1 []).pixLen.toNat = 64 ∧ 1 ≤ (small 1 []).fmt.st) :=
  ⟨⟨witness_large_inv.2.1, rfl, by decide, by decide⟩, ⟨witness_large_inv.1, rfl, by decide, by decide⟩,
    ⟨witness_large_inv.2.2.1, rfl, by decide, by decide⟩, ⟨witness_small_inv.2.2, rfl, by decide, by decide⟩⟩

theorem witness_EnczNeedsSixtyFourPixels :
    (large 0 63 []).fmt.valid = true ∧ (large 0 63 []).pixLen.toNat < 64 := by decide

/-- EnczIgnoresOffsetAndBufLen, EightBitPixelsIgnoreTheOrdering: an ENCZ that completes at 8 bpp. -/
theorem witness_EightBitPixelsIgnoreTheOrdering :
    ∃ t, (large 0 64 []).fmt.bppNat = 8 ∧ exec .encz (large 0 64 []) = .next t ∧ t.err = 0#4 := by
  obtain ⟨t, ht, he⟩ := next_of_errOf (show errOf (exec .encz (large 0 64 [])) = some 0#4 by decide +kernel)
  exact ⟨t, by decide, ht, he⟩

/-- EncodersUseOnlyLowPixelBits: pixels that differ above the low bit at 1 bpp. -/
theorem witness_EncodersUseOnlyLowPixelBits :
    ∃ (s t : State) (pix : Memory), pix ≠ s.pix ∧ s.fmt.legal ∧
      (∀ j, j < 64 → (({ s with pix := pix } : State).pixAt j).toNat % s.fmt.colors =
        (s.pixAt j).toNat % s.fmt.colors) ∧ exec .encode s = .next t := by
  obtain ⟨t, ht, -⟩ := next_of_errOf (show errOf (exec .encode (small 0 [])) = some 0#4 by decide +kernel)
  exact ⟨small 0 [], t, bytes 64 (fun j => j % 2 + 254), by decide +kernel, witness_small_inv.1.fmt,
    by decide +kernel, ht⟩

/-- PixelsSurviveEncodeThenDecode: strides 0 and -1; and stride 1 with the 15 bytes it needs (L1.7). -/
theorem witness_PixelsSurviveEncodeThenDecode :
    ∀ s ∈ [small 0 [], small (-1) [], lit 1 .inOrder 1 0 15 64 (bytes 64 (· % 2)) (bytes 0 id)],
      s.Inv ∧ s.fmt.valid = true ∧ s.offset.toNat % 8 = 0 ∧ s.pixLen.toNat = 64 ∧
      s.fmt.required (s.offset.toNat / 8) 8 ≤ s.bufLen.toNat ∧
      ∀ j, j < 64 → (s.pixAt j).toNat < s.fmt.colors := by
  intro s hs
  simp only [List.mem_cons, List.not_mem_nil, or_false] at hs
  rcases hs with rfl | rfl | rfl
  · exact ⟨witness_small_inv.1, by decide +kernel⟩
  · exact ⟨witness_small_inv.2.1, by decide +kernel⟩
  · exact ⟨lit_inv (by decide) (by decide) (by decide) (by decide) (by decide), by decide +kernel⟩

/-- BytesSurviveDecodeThenEncode, for OFFSET = 0 and strides 0 and -1. -/
theorem witness_BytesSurviveDecodeThenEncode :
    (∃ t, (small 0 []).Inv ∧ exec (.decode 8) (small 0 []) = .next t ∧ t.err = 0#4 ∧
      (small 0 []).offset = 0#32 ∧ (small 0 []).fmt.st = 0) ∧
    (∃ t, (small (-1) []).Inv ∧ exec (.decode 8) (small (-1) []) = .next t ∧ t.err = 0#4 ∧
      (small (-1) []).offset = 0#32 ∧ (small (-1) []).fmt.st = -1) := by
  obtain ⟨t, ht, he⟩ := next_of_errOf (show errOf (exec (.decode 8) (small 0 [])) = some 0#4 by decide +kernel)
  obtain ⟨u, hu, hf⟩ := next_of_errOf (show errOf (exec (.decode 8) (small (-1) [])) = some 0#4 by decide +kernel)
  exact ⟨⟨t, witness_small_inv.1, ht, he, by decide, by decide⟩,
    ⟨u, witness_small_inv.2.1, hu, hf, by decide, by decide⟩⟩

/-- FaultChangesOnlyStatusFields: a fault that records no lengths, and one that does. -/
theorem witness_FaultChangesOnlyStatusFields :
    (∃ t, exec .encode State.reset = .next t ∧ t.err ≠ 0#4 ∧ t.err ≠ 2#4 ∧ t.err ≠ 3#4) ∧
    (∃ t, exec .encode (large 0 63 []) = .next t ∧ t.err ≠ 0#4) :=
  ⟨⟨_, rfl, by decide, by decide, by decide⟩, ⟨_, rfl, by decide⟩⟩

/-- CommandsWriteOnlyTheirOwnState, CommandsReportTheirOwnCodes and CommandsNeverReadStatus: each command
completing. -/
theorem witness_each_command_completes :
    (∃ t, exec (.config 8 .reverseOrder (-1)) (small 0 []) = .next t ∧ t.err = 0#4) ∧
    (∃ t, exec (.decode 1) (small 0 []) = .next t ∧ t.err = 0#4) ∧
    (∃ t, exec .encode (small 0 []) = .next t ∧ t.err = 0#4) ∧
    (∃ t, exec .encz (small 0 []) = .next t ∧ t.err = 0#4) :=
  ⟨next_of_errOf (by decide +kernel), next_of_errOf (by decide +kernel), next_of_errOf (by decide +kernel),
    next_of_errOf (by decide +kernel)⟩

/-- StickyIsClearedOnlyByHostOrReset: CLRERR clears it, a faulting command sets it. -/
theorem witness_StickyIsClearedOnlyByHostOrReset :
    (∃ (s t : State) (e : HostEvent), s.host = [e] ∧ step s = .next t ∧ s.sticky = true ∧ t.sticky = false) ∧
    (∃ (s t : State) (e : HostEvent), s.host = [e] ∧ step s = .next t ∧ s.sticky = false ∧ t.sticky = true) :=
  ⟨⟨{ State.reset with sticky := true, host := [.write 0x004#32 4 0x100#32] }, _, _, rfl, rfl, rfl, rfl⟩,
    ⟨{ State.reset with host := [.write 0x000#32 4 0#32] }, _, _, rfl, rfl, rfl, rfl⟩⟩

theorem witness_RegisterReads : (small 0 [.read Reg.bufsz.addr 4]).host = .read Reg.bufsz.addr 4 :: [] := rfl

/-- RegisterWrites: each of the eight offsets of the clauses; STATUS with bit 8 set and clear. -/
theorem witness_RegisterWrites :
    ∀ a ∈ [0x004#32, 0x008#32, 0x00C#32, 0x01C#32, 0x020#32, 0x024#32, 0x010#32, 0x014#32, 0x018#32],
      ∀ w ∈ [0x100#32, 0xFFFFFEFF#32], ∃ s : State, s.host = .write a 4 w :: [] :=
  fun a _ w _ => ⟨small 0 [.write a 4 w], rfl⟩

/-- RefusedTransactionsChangeNothing, with BUF_SIZE = 64: the edges of every range of R39. -/
theorem witness_RefusedTransactionsChangeNothing :
    (∀ p ∈ [(0x28, 4), (0x24, 1), (0x22, 4), (0xFFF, 1), (0x1040, 1), (0x103D, 4), (0x1000, 2), (0x7FFFFFFF, 1),
      (0x80000040, 1)], ¬ Admitted 64 p.1 p.2) ∧ ¬ Admitted 66 0x80000040 4 ∧
    (∀ p ∈ [(0x24, 4), (0x103F, 1), (0x103C, 4), (0x8000003F, 1), (0x8000003C, 4)], Admitted 64 p.1 p.2) ∧
    Admitted (2 ^ 31) 0xFFFFFFFF 1 ∧
    (small 0 [.read 0x28#32 4]).host = .read 0x28#32 4 :: [] ∧
    (small 0 [.write 0x28#32 4 1#32]).host = .write 0x28#32 4 1#32 :: [] ∧
    (small 0 [.read 0x28#32 4]).Inv :=
  ⟨by decide, by decide, by decide, by decide, rfl, rfl,
    lit_inv (by decide) (by decide) (by decide) (by decide) (by decide)⟩

/-- PixWindowAccess: the last byte and the last word of the window. -/
theorem witness_PixWindowAccess :
    (63 < 64 ∧ 60 < 64 ∧ 60 % 4 = 0) ∧
    (∀ n ∈ [1, 4], ∃ s : State, s.host = .read (BitVec.ofNat 32 (0x1000 + 60)) n :: []) ∧
    (∀ n ∈ [1, 4], ∃ s : State, s.host = .write (BitVec.ofNat 32 (0x1000 + 60)) n 0xFFFFFFFF#32 :: []) :=
  ⟨by decide, fun n _ => ⟨small 0 [.read _ n], rfl⟩, fun n _ => ⟨small 0 [.write _ n _], rfl⟩⟩

/-- BufWindowAccess: the last byte and the last word of a BUF of 64 bytes. -/
theorem witness_BufWindowAccess :
    ((small 0 []).cfg.wf ∧ 63 < (small 0 []).cfg.bufSize ∧ 60 % 4 = 0 ∧ 60 + 3 < (small 0 []).cfg.bufSize) ∧
    (∀ n ∈ [1, 4], ∃ s : State, s.host = .read (BitVec.ofNat 32 (0x80000000 + 60)) n :: []) ∧
    (∀ n ∈ [1, 4], ∃ s : State, s.host = .write (BitVec.ofNat 32 (0x80000000 + 60)) n 0xFFFFFFFF#32 :: []) :=
  ⟨by decide, fun n _ => ⟨small 0 [.read _ n], rfl⟩, fun n _ => ⟨small 0 [.write _ n _], rfl⟩⟩

/-- EventsArePerformedInOrder: one event of each kind. -/
theorem witness_EventsArePerformedInOrder :
    ∀ e ∈ [HostEvent.read 0x004#32 4, .write 0x010#32 4 8#32, .reset, .resetDuringCmd 3#32],
      ∃ (s t : State), s.host = [e] ∧ step s = .next t := by
  intro e he
  simp only [List.mem_cons, List.not_mem_nil, or_false] at he
  rcases he with rfl | rfl | rfl | rfl <;> exact ⟨{ State.reset with host := [_] }, _, rfl, rfl⟩

end Sys2Proof.Tests
end

section
/-! PROOFS. The state of the block (10_state.md): what every operation keeps of a legal state, the frame of
every command, STICKY, the registers as the host sees them, and the order of events. -/

namespace Sys2Proof.Machine

open Sys2Proof

/-! ### What a decoded word, an executed word and a host transaction can be -/

theorem wellFormed_config_iff {nb : Nat} {no : PixelOrdering} {ns : Int} :
    (Instr.config nb no ns).WellFormed ↔ nb ≤ 15 ∧ -32768 ≤ ns ∧ ns ≤ 32767 := by
  simp [Instr.WellFormed, Instr.wellFormed, and_assoc]

/-- The decoder yields only operands that fit their fields (R64, R69). -/
theorem decode_wellFormed {w : Word} {i : Instr} (h : decode w = .ok i) : i.WellFormed := by
  cases i with
  | config nb no ns => exact wellFormed_config_iff.2 (decode_config_bounds h)
  | decode rows =>
    rcases decode_cases h with ⟨-, -, e⟩ | ⟨-, -, e⟩ | ⟨-, -, e⟩ | ⟨-, -, e⟩ <;> cases e
    have hlt := (field w 4 4).isLt
    exact decide_eq_true (by omega)
  | encode => rfl
  | encz => rfl

theorem executeWord_ok {w : Word} {i : Instr} (h : decode w = .ok i) (s : State) :
    executeWord w s = exec i s := by
  simp only [executeWord, h]

theorem executeWord_error {w : Word} {e : Illegal} (h : decode w = .error e) (s : State) :
    executeWord w s = .next (s.raise .illegalCommand) := by
  simp only [executeWord, h]

/-- A word that executes is a command that executes, or faults with IllegalCommand (R66, R69). -/
theorem executeWord_cases {w : Word} {s t : State} (h : executeWord w s = .next t) :
    (∃ i, decode w = .ok i ∧ exec i s = .next t) ∨ t = s.raise .illegalCommand := by
  cases hd : decode w with
  | ok i => exact .inl ⟨i, rfl, executeWord_ok hd s ▸ h⟩
  | error e =>
    rw [executeWord_error hd] at h
    exact .inr (Host.Outcome.next.inj h).symm

/-- A host read gives one response and nothing else (R42). -/
theorem hostRead_eq_respond (a : Word) (n : Nat) (s : State) :
    ∃ r v, hostRead a n s = s.respond (.read r v) := by
  unfold hostRead
  split
  · exact ⟨_, _, rfl⟩
  · exact ⟨_, _, rfl⟩

/-! ### Updates that keep a legal state -/

theorem CmdFault.code_le_seven (f : CmdFault) : f.code.toNat ≤ 7 := by
  cases f <;> simp [CmdFault.code]

section Inv

variable {s : State} (hi : s.Inv)
include hi

theorem State.Inv.raise (f : CmdFault) : (s.raise f).Inv := { hi with err := f.code_le_seven }

theorem State.Inv.complete : s.complete.Inv := { hi with err := Nat.zero_le _ }

theorem State.Inv.latch {f : Fmt} (hf : f.legal) : (s.latch f).Inv := { hi with fmt := hf }

theorem State.Inv.setPixels {m : Memory} {n : Nat} (hm : Memory.wf 64 m) (hn : n ≤ 64) :
    (s.setPixels m n).Inv :=
  { hi with pix := hm, pixLen := (Nat.mod_le n _).trans hn }

theorem State.Inv.setPix {m : Memory} (hm : Memory.wf 64 m) : (s.setPix m).Inv := { hi with pix := hm }

theorem State.Inv.setBuf {m : Memory} (hm : Memory.wf s.cfg.bufSize m) : (s.setBuf m).Inv :=
  { hi with buf := hm }

theorem State.Inv.setBufLen {n : Nat} (hn : n ≤ s.cfg.bufSize) : (s.setBufLen n).Inv :=
  { hi with bufLen := (Nat.mod_le n _).trans hn }

theorem State.Inv.respond (r : Response) : (s.respond r).Inv := { hi with }

theorem State.Inv.takeEvent (rest : List HostEvent) : (s.takeEvent rest).Inv := { hi with }

theorem State.Inv.afterReset : s.afterReset.Inv where
  cfg := hi.cfg
  err := Nat.zero_le _
  fmt := rfl
  bufLen := Nat.zero_le _
  pixLen := Nat.zero_le _
  pix := Memory.wf_nil _
  buf := Memory.wf_nil _

/-- A register write stores BUF_LEN and PIX_LEN clipped to their bounds (R23, R24). -/
theorem State.Inv.writeReg (r : Reg) (w : Word) : (s.writeReg r w).Inv := by
  cases r with
  | bufLen => exact hi.setBufLen (Nat.min_le_right _ _)
  | pixLen => exact { hi with pixLen := (Nat.mod_le _ _).trans (Nat.min_le_right _ _) }
  | status => exact { hi with }
  | offset => exact { hi with }
  | cmd | fmt | geom | errReq | errAvail | bufsz => exact hi

/-- An admitted write lands inside what it reaches (R41). -/
theorem State.Inv.writeTarget {a n : Nat} {g : Target} (hg : target s.cfg a n = some g) (w : Word) :
    (s.writeTarget g w).Inv := by
  have hb := target_bounds hg
  cases g with
  | reg r => exact hi.writeReg r w
  | pixByte j => exact hi.setPix (Memory.wf_write hi.pix hb)
  | pixWord j => exact hi.setPix (Memory.wf_writeWord hi.pix hb)
  | bufByte b => exact hi.setBuf (Memory.wf_write hi.buf hb)
  | bufWord b => exact hi.setBuf (Memory.wf_writeWord hi.buf hb)

end Inv

/-! ### Commands and steps that keep a legal state -/

/-- What CONFIG latches is legal: a checked stride fits the field, so it is latched as it is (R73, R74). -/
theorem Fmt.candidate_legal {nb : Nat} {no : PixelOrdering} {ns : Int} (h : legalFormat nb ns = true)
    (hns : ns ≤ 32767) : (Fmt.candidate nb no ns).legal := by
  obtain ⟨hnb, hlow⟩ := legalFormat_iff.1 h
  have hbpp : (Fmt.candidate nb no ns).bppNat = nb := Nat.mod_eq_of_lt (by omega)
  have hst : (Fmt.candidate nb no ns).st = ns :=
    BitVec.toInt_ofInt_eq_self (by omega) (by omega) (by omega)
  rw [Fmt.legal, if_pos (by rfl), hbpp, hst]
  exact h

/-- Every command a word encodes keeps a legal state. -/
theorem State.Inv.exec {s t : State} {i : Instr} (hi : s.Inv) (hw : i.WellFormed)
    (h : exec i s = .next t) : t.Inv := by
  rcases exec_cases h with ⟨f, rfl⟩ | ⟨nb, no, ns, rfl, hc, rfl⟩ | ⟨rows, rfl, hc, rfl⟩ |
    ⟨rfl, hc, rfl⟩ | ⟨rfl, hc, rfl⟩
  · exact hi.raise f
  · have hlegal : legalFormat nb ns = true := by simpa [checkConfig_eq] using hc
    obtain ⟨-, -, hns⟩ := wellFormed_config_iff.1 hw
    exact (hi.latch (Fmt.candidate_legal hlegal hns)).complete
  · obtain ⟨hv, ⟨-, hrows⟩, -, -⟩ := checkDecode_eq_none_iff.1 hc
    have hbpp := (Fmt.legal_of_valid hi.fmt hv).1
    exact (hi.setPixels (Fmt.wf_unpackRows hbpp _ hrows hi.pix) (by omega)).complete
  · exact (hi.setBuf (Fmt.wf_packRows (hi.encode_accesses hc) hi.buf)).complete
  · obtain ⟨hv, -, -⟩ := checkEncz_eq_none_iff.1 hc
    have hsize := (hi.tileSize_le hv).2
    have hwalk : ∀ a ∈ s.fmt.walk 0 8, a < s.cfg.bufSize := fun a ha =>
      hi.encz_accesses hc a (List.mem_append_right _ ha)
    exact ((hi.setBufLen hsize).setBuf (Fmt.wf_packRows hwalk (wf_zeroFill hsize hi.buf))).complete

theorem State.Inv.executeWord {s t : State} {w : Word} (hi : s.Inv) (h : executeWord w s = .next t) :
    t.Inv := by
  rcases executeWord_cases h with ⟨i, hd, hx⟩ | rfl
  · exact hi.exec (decode_wellFormed hd) hx
  · exact hi.raise _

/-- Settles O13: each of the things a step can do (`step_cases`) keeps a legal state. -/
theorem everyStepKeepsLegalStates : Obligations.EveryStepKeepsLegalStates := by
  intro s t hi h
  rcases step_cases h with ⟨-, rfl⟩ | ⟨e, rest, -, hcase⟩
  · exact hi
  · have hi' := hi.takeEvent rest
    rcases hcase with ⟨a, n, -, rfl⟩ | ⟨w, u, -, hu, rfl⟩ | ⟨a, n, w, g, -, hg, -, rfl⟩ |
      ⟨a, n, w, -, -, rfl⟩ | ⟨-, rfl⟩
    · obtain ⟨r, v, heq⟩ := hostRead_eq_respond a n (s.takeEvent rest)
      exact heq ▸ hi'.respond _
    · exact (hi'.executeWord hu).respond _
    · exact (hi'.writeTarget hg w).respond _
    · exact hi'.respond _
    · exact hi'.afterReset

/-! ### What a command may write -/

section Frame

variable {i : Instr} {s t : State} (h : exec i s = .next t)
include h

/-- No command touches OFFSET (R22), nor what is not the block's own. -/
theorem exec_frame : t.offset = s.offset ∧ t.cfg = s.cfg ∧ t.draw = s.draw ∧ t.host = s.host ∧
    t.responses = s.responses := by
  rcases exec_cases h with ⟨f, rfl⟩ | ⟨nb, no, ns, rfl, -, rfl⟩ | ⟨rows, rfl, -, rfl⟩ |
    ⟨rfl, -, rfl⟩ | ⟨rfl, -, rfl⟩
  all_goals exact ⟨rfl, rfl, rfl, rfl, rfl⟩

/-- A command reports a fault, or completes and leaves the rest of the report alone (R19, R117). -/
theorem exec_report : (∃ f, t = s.raise f) ∨
    (t.err = 0#4 ∧ t.sticky = s.sticky ∧ t.errReq = s.errReq ∧ t.errAvail = s.errAvail) := by
  rcases exec_cases h with hf | ⟨nb, no, ns, rfl, -, rfl⟩ | ⟨rows, rfl, -, rfl⟩ |
    ⟨rfl, -, rfl⟩ | ⟨rfl, -, rfl⟩
  · exact .inl hf
  all_goals exact .inr ⟨rfl, rfl, rfl, rfl⟩

end Frame

/-- Settles O43: a fault writes none of the fields, and a completed effect only those of its own command. -/
theorem commandsWriteOnlyTheirOwnState : Obligations.CommandsWriteOnlyTheirOwnState := by
  intro i s t h
  obtain ⟨hoff, hcfg, hdraw, hhost, hresp⟩ := exec_frame h
  refine ⟨hoff, hcfg, hdraw, hhost, hresp, fun hok => ?_, ?_⟩
  · rcases exec_report h with ⟨f, rfl⟩ | ⟨-, hreport⟩
    · exact absurd hok f.code_ne_zero
    · exact hreport
  · rcases exec_cases h with ⟨f, rfl⟩ | ⟨nb, no, ns, rfl, -, rfl⟩ | ⟨rows, rfl, -, rfl⟩ |
      ⟨rfl, -, rfl⟩ | ⟨rfl, -, rfl⟩
    · exact ⟨fun _ => rfl, fun _ => ⟨rfl, fun _ => rfl⟩, fun _ _ _ => rfl, fun _ => rfl⟩
    · exact ⟨fun hne => absurd rfl (hne nb no ns), fun _ => ⟨rfl, fun _ => rfl⟩, fun _ _ _ => rfl,
        fun _ => rfl⟩
    · exact ⟨fun _ => rfl, fun hne => absurd rfl (hne rows), fun _ _ _ => rfl, fun _ => rfl⟩
    · exact ⟨fun _ => rfl, fun _ => ⟨rfl, fun _ => rfl⟩, fun hne => absurd rfl hne, fun _ => rfl⟩
    · exact ⟨fun _ => rfl, fun _ => ⟨rfl, fun _ => rfl⟩, fun _ hne => absurd rfl hne,
        fun hne => absurd rfl hne⟩

/-! ### What a command does not read -/

/-- The state with another fault report: STATUS, ERR_REQ and ERR_AVAIL. -/
def State.withReport (s : State) (err : BitVec 4) (sticky : Bool) (errReq errAvail : Word) : State :=
  { s with err := err, sticky := sticky, errReq := errReq, errAvail := errAvail }

/-- Every command is one run of the shared frame, and its check, accesses and effect are the same under
any fault report. -/
theorem exec_eq_command (i : Instr) (s : State) :
    ∃ check accesses effect, exec i s = command s check accesses effect ∧
      ∀ err sticky errReq errAvail, exec i (s.withReport err sticky errReq errAvail) =
        command (s.withReport err sticky errReq errAvail) check accesses
          (effect.withReport err sticky errReq errAvail) := by
  cases i with
  | config nb no ns => exact ⟨_, _, _, exec_config nb no ns s, fun _ _ _ _ => rfl⟩
  | decode rows => exact ⟨_, _, _, exec_decode rows s, fun _ _ _ _ => rfl⟩
  | encode => exact ⟨_, _, _, exec_encode s, fun _ _ _ _ => rfl⟩
  | encz => exact ⟨_, _, _, exec_encz s, fun _ _ _ _ => rfl⟩

/-- Settles O45: under another report the command takes the same branch of the frame. -/
theorem commandsNeverReadStatus : Obligations.CommandsNeverReadStatus := by
  intro i s t err sticky errReq errAvail h
  obtain ⟨check, accesses, effect, hrun, hother⟩ := exec_eq_command i s
  rw [hrun] at h
  change ∃ u, exec i (s.withReport err sticky errReq errAvail) = .next u ∧ _
  rw [hother]
  rcases command_eq_next_iff.1 h with ⟨f, hc, rfl⟩ | ⟨hc, hacc, rfl⟩
  · exact ⟨_, command_of_some hc, rfl⟩
  · exact ⟨_, command_of_none hc hacc, rfl⟩

/-! ### STICKY -/

/-- Only a 4-byte access at a register's offset reaches it (R39, R40). -/
theorem target_eq_reg {cfg : Config} {a n : Nat} {r : Reg} (h : target cfg a n = some (.reg r)) :
    a = r.addr.toNat ∧ n = 4 := by
  unfold target windowTarget at h
  split at h
  · split at h
    · rename_i ha hn
      obtain ⟨q, hq, hqe⟩ : ∃ q, q < 10 ∧ a = 4 * q := ⟨a / 4, by omega, by omega⟩
      refine ⟨?_, hn.1⟩
      subst hqe
      rw [Nat.mul_div_cancel_left q (by omega)] at h
      interval_cases q <;> cases h <;> rfl
    · cases h
  · repeat' split at h
    all_goals simp at h

/-- Of the admitted writes that execute nothing, only one to STATUS touches STICKY (R19). -/
theorem State.writeTarget_sticky_of_ne_status {g : Target} (hg : g ≠ .reg .status) (s : State) (w : Word) :
    (s.writeTarget g w).sticky = s.sticky := by
  cases g with
  | reg r => cases r with
    | status => exact absurd rfl hg
    | _ => rfl
  | _ => rfl

/-- A CMD write reports a fault, or leaves STICKY alone (R19). -/
theorem executeWord_sticky {w : Word} {s t : State} (h : executeWord w s = .next t) :
    (t.sticky = true ∧ t.err ≠ 0#4) ∨ t.sticky = s.sticky := by
  rcases executeWord_cases h with ⟨i, -, hx⟩ | rfl
  · rcases exec_report hx with ⟨f, rfl⟩ | ⟨-, hsticky, -, -⟩
    · exact .inl ⟨rfl, f.code_ne_zero⟩
    · exact .inr hsticky
  · exact .inl ⟨rfl, CmdFault.illegalCommand.code_ne_zero⟩

/-- Settles O46, by what each event can do to STICKY. -/
theorem stickyIsClearedOnlyByHostOrReset : Obligations.StickyIsClearedOnlyByHostOrReset := by
  intro s t e rest hs h
  rcases step_cases h with ⟨hnil, -⟩ | ⟨e', rest', hs', hcase⟩
  · simp [hs] at hnil
  obtain ⟨rfl, rfl⟩ := List.cons.inj (hs.symm.trans hs')
  rcases hcase with ⟨a, n, -, rfl⟩ | ⟨w, u, rfl, hu, rfl⟩ | ⟨a, n, w, g, rfl, hg, -, rfl⟩ |
    ⟨a, n, w, -, -, rfl⟩ | ⟨he, rfl⟩
  · obtain ⟨r, v, heq⟩ := hostRead_eq_respond a n (s.takeEvent rest)
    simp +contextual [heq]
  · rcases executeWord_sticky hu with ⟨hset, herr⟩ | hsame
    · simp [hset, herr]
    · simp +contextual [hsame]
  · by_cases hstatus : g = .reg .status
    · subst hstatus
      obtain ⟨ha, rfl⟩ := target_eq_reg hg
      obtain rfl : a = 0x004#32 := BitVec.eq_of_toNat_eq ha
      simp +contextual [State.writeTarget, State.writeReg]
    · simp +contextual [State.writeTarget_sticky_of_ne_status hstatus]
  · simp +contextual
  · exact ⟨fun _ _ => .inr he, by simp⟩

/-! ### Registers as the host sees them -/

/-- A concatenation as a number: the upper part stands above all bits of the lower. -/
theorem toNat_append_eq_add {m n : Nat} (x : BitVec m) (y : BitVec n) :
    (x ++ y).toNat = x.toNat * 2 ^ n + y.toNat := by
  rw [BitVec.toNat_append, toNat_shiftLeft_or y.isLt]

/-- Settles O47: STATUS and FMT are concatenations, so each field is a summand. -/
theorem statusAndFmtLayout : Obligations.StatusAndFmtLayout := by
  intro s
  constructor
  · simp only [State.readReg, State.statusWord, toNat_append_eq_add]
    cases s.sticky <;> simp
  · simp only [State.readReg, Fmt.word, toNat_append_eq_add]
    cases s.fmt.valid <;> cases s.fmt.ord <;> simp [PixelOrdering.bit] <;> omega

/-- A 4-byte read of a register returns its value (R42). -/
theorem step_readReg {s : State} {r : Reg} {rest : List HostEvent} (h : s.host = .read r.addr 4 :: rest) :
    step s = .next ((s.takeEvent rest).respond (.read .okay (s.readReg r))) := by
  rw [step_read h, hostRead, target_reg]
  cases r <;> rfl

/-- Settles O48: `step_readReg`, and what each register's word is. -/
theorem registerReads : Obligations.RegisterReads := by
  intro s r rest h
  refine ⟨step_readReg h, rfl, rfl, rfl, rfl, ?_, rfl, rfl, rfl⟩
  have hlen := s.pixLen.isLt
  simp only [State.readReg, BitVec.toNat_setWidth]
  omega

/-- A 4-byte write of a register that executes nothing has that register's effect (R42). -/
theorem step_writeReg {s : State} {r : Reg} (hr : r ≠ .cmd) {w : Word} {rest : List HostEvent}
    (h : s.host = .write r.addr 4 w :: rest) :
    step s = .next (((s.takeEvent rest).writeReg r w).respond (.write .okay)) := by
  rw [step_write h, hostWrite, target_reg]
  cases r with
  | cmd => exact absurd rfl hr
  | _ => rfl

/-- Settles O49: the address names the register, and `step_writeReg` gives the register's effect. -/
theorem registerWrites : Obligations.RegisterWrites := by
  intro s a w rest h
  refine ⟨?_, fun ha => ?_, ?_, ?_, ?_⟩
  · rintro rfl
    have hsticky : (if w.getLsbD 8 then false else s.sticky) = (s.sticky && !w.getLsbD 8) := by
      cases w.getLsbD 8 <;> simp
    rw [hsticky]
    exact step_writeReg (r := .status) (by decide) h
  · simp only [List.mem_cons, List.not_mem_nil, or_false] at ha
    rcases ha with rfl | rfl | rfl | rfl | rfl
    · exact step_writeReg (r := .fmt) (by decide) h
    · exact step_writeReg (r := .geom) (by decide) h
    · exact step_writeReg (r := .errReq) (by decide) h
    · exact step_writeReg (r := .errAvail) (by decide) h
    · exact step_writeReg (r := .bufsz) (by decide) h
  · rintro rfl; exact step_writeReg (r := .offset) (by decide) h
  · rintro rfl; exact step_writeReg (r := .bufLen) (by decide) h
  · rintro rfl; exact step_writeReg (r := .pixLen) (by decide) h

/-! ### The order of events -/

/-- An executed word changes nothing that is not the block's own. -/
theorem executeWord_frame {w : Word} {s t : State} (h : executeWord w s = .next t) :
    t.cfg = s.cfg ∧ t.draw = s.draw ∧ t.host = s.host ∧ t.responses = s.responses := by
  rcases executeWord_cases h with ⟨i, -, hx⟩ | rfl
  · exact (exec_frame hx).2
  · exact ⟨rfl, rfl, rfl, rfl⟩

/-- An admitted write changes nothing that is not the block's own. -/
theorem State.writeTarget_frame (s : State) (g : Target) (w : Word) :
    (s.writeTarget g w).cfg = s.cfg ∧ (s.writeTarget g w).draw = s.draw ∧
      (s.writeTarget g w).host = s.host ∧ (s.writeTarget g w).responses = s.responses := by
  cases g with
  | reg r => cases r <;> exact ⟨rfl, rfl, rfl, rfl⟩
  | _ => exact ⟨rfl, rfl, rfl, rfl⟩

/-- Settles O53, by the five things an event can be and the frame of each. -/
theorem eventsArePerformedInOrder : Obligations.EventsArePerformedInOrder := by
  intro s t e rest hs h
  rcases step_cases h with ⟨hnil, -⟩ | ⟨e', rest', hs', hcase⟩
  · simp [hs] at hnil
  obtain ⟨rfl, rfl⟩ := List.cons.inj (hs.symm.trans hs')
  rcases hcase with ⟨a, n, rfl, rfl⟩ | ⟨w, u, rfl, hu, rfl⟩ | ⟨a, n, w, g, rfl, -, -, rfl⟩ |
    ⟨a, n, w, rfl, -, rfl⟩ | ⟨he, rfl⟩
  · obtain ⟨r, v, heq⟩ := hostRead_eq_respond a n (s.takeEvent rest)
    rw [heq]
    exact ⟨rfl, rfl, r, v, rfl, rfl⟩
  · obtain ⟨hcfg, hdraw, hhost, hresp⟩ := executeWord_frame hu
    exact ⟨hcfg, hhost, .okay, congrArg _ hresp, hdraw⟩
  · obtain ⟨hcfg, hdraw, hhost, hresp⟩ := (s.takeEvent rest).writeTarget_frame g w
    exact ⟨hcfg, hhost, .okay, congrArg _ hresp, hdraw⟩
  · exact ⟨rfl, rfl, .slverr, rfl, rfl⟩
  · rcases he with rfl | ⟨w, rfl⟩
    · exact ⟨rfl, rfl, rfl, rfl⟩
    · exact ⟨rfl, rfl, rfl, rfl⟩

/-- Settles O8: a CMD write executes its word (`step_cmd`), and the word is `i`. -/
theorem stepRunsTheDecodedCommand : Obligations.StepRunsTheDecodedCommand := by
  intro s w i rest hs hd
  rw [step_cmd hs, executeWord_ok hd]
  rfl

end Sys2Proof.Machine
end

section
/-! PROOFS. The memory of the block (20_memory.md): no command or step from a legal state reaches beyond BUF,
a command repeated changes nothing, refused transactions, and the PIX and BUF windows. -/

namespace Sys2Proof.Machine

open Sys2Proof

/-! ### No stop from a legal state -/

/-- A command whose accesses exist once its checks pass goes on (`command_cases`, log 7). -/
theorem command_goesOn {s effect : State} {check : Option CmdFault} {accesses : List Nat}
    (hacc : check = none → ∀ a ∈ accesses, a < s.cfg.bufSize) :
    goesOn (command s check accesses effect) := by
  rcases command_cases s effect check accesses with hgo | ⟨a, ha, hc, hle⟩
  · exact hgo
  · exact absurd (hacc hc a ha) (Nat.not_lt.2 hle)

section GoesOn

variable {s : State} (hi : s.Inv)
include hi

/-- Whatever a command accesses once its checks pass exists, so the stop of log 7 is not reached (R47). -/
theorem State.Inv.exec_goesOn (i : Instr) : goesOn (Machine.exec i s) := by
  cases i with
  | config nb no ns => exact command_goesOn fun _ a ha => absurd ha List.not_mem_nil
  | decode rows => exact command_goesOn hi.decode_accesses
  | encode => exact command_goesOn hi.encode_accesses
  | encz => exact command_goesOn hi.encz_accesses

theorem State.Inv.executeWord_goesOn (w : Word) : goesOn (Machine.executeWord w s) := by
  cases hd : decode w with
  | ok i => rw [executeWord_ok hd]; exact hi.exec_goesOn i
  | error e => exact ⟨_, executeWord_error hd s⟩

theorem State.Inv.hostWrite_goesOn (a : Word) (n : Nat) (w : Word) : goesOn (hostWrite a n w s) := by
  unfold hostWrite
  split
  · obtain ⟨t, ht⟩ := hi.executeWord_goesOn w
    exact ⟨_, onNext_eq_next_iff.2 ⟨t, ht, rfl⟩⟩
  · exact ⟨_, rfl⟩
  · exact ⟨_, rfl⟩

theorem State.Inv.step_goesOn : goesOn (step s) := by
  unfold step
  split
  · exact ⟨_, rfl⟩
  · rename_i e rest _
    cases e with
    | write a n w => exact (hi.takeEvent rest).hostWrite_goesOn a n w
    | read | reset | resetDuringCmd => exact ⟨_, rfl⟩

end GoesOn

/-- Settles O14: every command's accesses exist, and of a step's parts only a command could stop. -/
theorem legalStatesNeverStop : Obligations.LegalStatesNeverStop :=
  fun _ hi => ⟨hi.exec_goesOn, hi.step_goesOn⟩

/-! ### A command repeated -/

theorem State.raise_raise (s : State) (f : CmdFault) : (s.raise f).raise f = s.raise f := by
  cases f <;> rfl

/-- No command reads the fault report (`exec_eq_command`): a check that failed fails again after the fault,
with the same lengths. -/
theorem exec_again_of_fault {i : Instr} {s t : State} (h : exec i s = .next t) (hf : t.err ≠ 0#4) :
    exec i t = .next t := by
  obtain ⟨check, accesses, effect, hrun, hother⟩ := exec_eq_command i s
  rw [hrun] at h
  rcases command_eq_next_iff.1 h with ⟨f, hc, rfl⟩ | ⟨-, -, rfl⟩
  · have hagain := (hother f.code true (s.raise f).errReq (s.raise f).errAvail).trans (command_of_some hc)
    exact hagain.trans (congrArg _ (s.raise_raise f))
  · exact absurd rfl hf

/-- A command whose checks pass and whose completed effect is the state it runs in leaves that state. -/
theorem command_eq_self {t effect : State} {check : Option CmdFault} {accesses : List Nat}
    (hc : check = none) (hacc : ∀ a ∈ accesses, a < t.cfg.bufSize) (heffect : effect.complete = t) :
    command t check accesses effect = .next t :=
  (command_of_none hc hacc).trans (congrArg _ heffect)

/-- DECODE's loops overwrite what they wrote with the same pixels. -/
theorem Fmt.unpackRows_unpackRows {f : Fmt}
    (h : f.bppNat = 1 ∨ f.bppNat = 2 ∨ f.bppNat = 4 ∨ f.bppNat = 8) (read : Nat → Byte) (base : Nat)
    {rows : Nat} (hrows : rows ≤ 8) {pix : Memory} (hp : Memory.wf 64 pix) :
    f.unpackRows read base rows (f.unpackRows read base rows pix) = f.unpackRows read base rows pix := by
  have hw := Fmt.wf_unpackRows h read (base := base) hrows hp
  refine Memory.ext_of_lookup (Fmt.wf_unpackRows h read hrows hw) hw fun j => ?_
  rw [Fmt.lookup_unpackRows h]
  split
  · rename_i hj
    rw [Fmt.lookup_unpackRows h, if_pos hj]
  · rfl

/-- ENCODE's loops depend on BUF only outside the walk: every walked byte is overwritten (R107). -/
theorem Fmt.packRows_congr_buf {f : Fmt} (hst : -1 ≤ f.st) (pix : Nat → Byte) {base size : Nat}
    (hwalk : ∀ a ∈ f.walk base 8, a < size) {m n : Memory} (hm : Memory.wf size m) (hn : Memory.wf size n)
    (h : ∀ a, a ∉ f.walk base 8 → Memory.lookup m a = Memory.lookup n a) :
    f.packRows pix base m = f.packRows pix base n := by
  refine Memory.ext_of_lookup (Fmt.wf_packRows hwalk hm) (Fmt.wf_packRows hwalk hn) fun a => ?_
  by_cases ha : a ∈ f.walk base 8
  · obtain ⟨r, b, hr, hb, rfl⟩ := Fmt.mem_walk.1 ha
    rw [Fmt.lookup_packRows hst pix base m hr hb, Fmt.lookup_packRows hst pix base n hr hb]
  · rw [Fmt.lookup_packRows_of_not_mem f pix base m a ha, Fmt.lookup_packRows_of_not_mem f pix base n a ha,
      h a ha]

/-- ENCODE's loops overwrite what they wrote with the same bytes. -/
theorem Fmt.packRows_packRows {f : Fmt} (hst : -1 ≤ f.st) (pix : Nat → Byte) {base size : Nat}
    (hwalk : ∀ a ∈ f.walk base 8, a < size) {buf : Memory} (hb : Memory.wf size buf) :
    f.packRows pix base (f.packRows pix base buf) = f.packRows pix base buf :=
  Fmt.packRows_congr_buf hst pix hwalk (Fmt.wf_packRows hwalk hb) hb
    (Fmt.lookup_packRows_of_not_mem f pix base buf)

/-- ENCZ zeroes and packs the same bytes again: outside the walk its first run left the zero fill. -/
theorem Fmt.packRows_zeroFill_again {f : Fmt} (hst : -1 ≤ f.st) (pix : Nat → Byte) {n size : Nat}
    (hn : n ≤ size) (hwalk : ∀ a ∈ f.walk 0 8, a < size) {buf : Memory} (hb : Memory.wf size buf) :
    f.packRows pix 0 (zeroFill n (f.packRows pix 0 (zeroFill n buf))) =
      f.packRows pix 0 (zeroFill n buf) := by
  have hzero := wf_zeroFill hn hb
  refine Fmt.packRows_congr_buf hst pix hwalk (wf_zeroFill hn (Fmt.wf_packRows hwalk hzero)) hzero
    fun a ha => ?_
  rw [lookup_zeroFill, Fmt.lookup_packRows_of_not_mem f pix 0 _ a ha, lookup_zeroFill]
  split <;> rfl

/-- Settles O41. A fault is reported again (`exec_again_of_fault`). A completed command passes the same checks again,
since its effect changes nothing they read, and its loops overwrite what they wrote. -/
theorem commandsAreIdempotent : Obligations.CommandsAreIdempotent := by
  intro i s t hi h
  rcases exec_cases h with ⟨f, rfl⟩ | ⟨nb, no, ns, rfl, hc, rfl⟩ | ⟨rows, rfl, hc, rfl⟩ |
    ⟨rfl, hc, rfl⟩ | ⟨rfl, hc, rfl⟩
  · exact exec_again_of_fault h f.code_ne_zero
  · exact command_eq_self hc (fun a ha => absurd ha List.not_mem_nil) rfl
  · obtain ⟨hv, ⟨-, hrows⟩, -, -⟩ := checkDecode_eq_none_iff.1 hc
    have hbpp := (Fmt.legal_of_valid hi.fmt hv).1
    have hpix := Fmt.unpackRows_unpackRows hbpp s.bufAt s.base hrows hi.pix
    exact command_eq_self hc (hi.decode_accesses hc)
      (congrArg (fun m => (s.setPixels m (rows * 8)).complete) hpix)
  · obtain ⟨hv, -⟩ := checkEncode_eq_none_iff.1 hc
    have hst := (Fmt.legal_of_valid hi.fmt hv).2
    have hbuf := Fmt.packRows_packRows hst s.pixAt (hi.encode_accesses hc) hi.buf
    exact command_eq_self hc (hi.encode_accesses hc) (congrArg (fun m => (s.setBuf m).complete) hbuf)
  · obtain ⟨hv, -⟩ := checkEncz_eq_none_iff.1 hc
    have hst := (Fmt.legal_of_valid hi.fmt hv).2
    have hwalk : ∀ a ∈ s.fmt.walk 0 8, a < s.cfg.bufSize := fun a ha =>
      hi.encz_accesses hc a (List.mem_append_right _ ha)
    have hbuf := Fmt.packRows_zeroFill_again hst s.pixAt (hi.tileSize_le hv).2 hwalk hi.buf
    exact command_eq_self hc (hi.encz_accesses hc)
      (congrArg (fun m => ((s.setBufLen s.fmt.tileSize).setBuf m).complete) hbuf)

/-! ### Transactions by what they reach -/

section Transactions

variable {s : State} {a : Word} {n : Nat} {rest : List HostEvent}

/-- An admitted read answers OKAY with the value of what it reaches (R42). -/
theorem step_read_of_target {g : Target} (hg : target s.cfg a.toNat n = some g)
    (h : s.host = .read a n :: rest) :
    step s = .next ((s.takeEvent rest).respond (.read .okay ((s.takeEvent rest).readTarget g))) := by
  simp only [step_read h, hostRead, State.takeEvent_cfg, hg]

/-- An admitted write that executes nothing has the effect of what it reaches, and answers OKAY (R42). -/
theorem step_write_of_target {g : Target} {w : Word} (hg : target s.cfg a.toNat n = some g)
    (hne : g ≠ .reg .cmd) (h : s.host = .write a n w :: rest) :
    step s = .next (((s.takeEvent rest).writeTarget g w).respond (.write .okay)) := by
  simp only [step_write h, hostWrite, State.takeEvent_cfg, hg]

/-- A refused read returns 0 (R41). -/
theorem step_read_of_refused (hg : target s.cfg a.toNat n = none) (h : s.host = .read a n :: rest) :
    step s = .next ((s.takeEvent rest).respond (.read .slverr 0#32)) := by
  simp only [step_read h, hostRead, State.takeEvent_cfg, hg]

/-- A refused write has no effect (R41, R122). -/
theorem step_write_of_refused {w : Word} (hg : target s.cfg a.toNat n = none)
    (h : s.host = .write a n w :: rest) :
    step s = .next ((s.takeEvent rest).respond (.write .slverr)) := by
  simp only [step_write h, hostWrite, State.takeEvent_cfg, hg]

/-- An admitted write that goes on is answered OKAY, also when its command faults (R40, R117). -/
theorem step_write_answers_okay {t : State} {g : Target} {w : Word} (hg : target s.cfg a.toNat n = some g)
    (h : s.host = .write a n w :: rest) (ht : step s = .next t) :
    t.host = rest ∧ t.responses = .write .okay :: s.responses := by
  by_cases hcmd : g = .reg .cmd
  · subst hcmd
    obtain ⟨ha, rfl⟩ := target_eq_reg hg
    obtain rfl : a = 0x000#32 := BitVec.eq_of_toNat_eq ha
    rw [step_cmd h] at ht
    obtain ⟨u, hu, rfl⟩ := onNext_eq_next_iff.1 ht
    obtain ⟨-, -, hhost, hresp⟩ := executeWord_frame hu
    exact ⟨hhost, congrArg _ hresp⟩
  · rw [step_write_of_target hg hcmd h] at ht
    obtain rfl := Host.Outcome.next.inj ht
    obtain ⟨-, -, hhost, hresp⟩ := (s.takeEvent rest).writeTarget_frame g w
    exact ⟨hhost, congrArg _ hresp⟩

end Transactions

/-- Settles O50: what is not admitted reaches no target, and what is admitted reaches one
(`target_isSome_iff`). -/
theorem refusedTransactionsChangeNothing : Obligations.RefusedTransactionsChangeNothing := by
  intro s a d n rest hi
  rw [← target_isSome_iff hi.cfg]
  constructor
  · intro hno
    have hg : target s.cfg a.toNat n = none := Option.eq_none_iff_forall_ne_some.2 fun g hg => hno ⟨g, hg⟩
    exact ⟨step_read_of_refused hg, step_write_of_refused hg⟩
  · rintro ⟨g, hg⟩
    refine ⟨fun h => ⟨_, step_read_of_target hg h⟩, fun h => ?_⟩
    obtain ⟨t, ht⟩ := hi.step_goesOn
    exact ⟨t, ht, step_write_answers_okay hg h ht⟩

/-! ### The windows -/

theorem State.pixAt_of_lookup {s : State} {j : Nat} {v : Byte} (h : Memory.lookup s.pix j = some v) :
    s.pixAt j = v := by simp [State.pixAt, h]

/-- The byte a 1-byte write stores (R44). -/
theorem toNat_field_zero_eight (w : Word) : (field w 0 8).toNat = w.toNat % 256 := by
  simp [field_toNat]

theorem Memory.lookup_write_self (m : Memory) (j : Nat) (v : Byte) :
    Memory.lookup (Memory.write m j v) j = some v := by
  rw [Memory.lookup_write, if_pos rfl]

theorem Memory.lookup_write_of_ne {m : Memory} {j i : Nat} {v : Byte} (h : i ≠ j) :
    Memory.lookup (Memory.write m j v) i = Memory.lookup m i := by
  rw [Memory.lookup_write, if_neg h]

/-- A 4-byte write leaves every byte outside its four alone (R43). -/
theorem Memory.lookup_writeWord_of_outside {m : Memory} {j i : Nat} {w : Word} (h : i < j ∨ j + 3 < i) :
    Memory.lookup (Memory.writeWord m j w) i = Memory.lookup m i := by
  rw [Memory.lookup_writeWord, if_neg (by omega), if_neg (by omega), if_neg (by omega), if_neg (by omega)]

/-- The four bytes after a 4-byte write, lowest address in bits [7:0] (R43), for any reading of the memory
that returns what is listed. -/
theorem toNat_bytes_of_writeWord {m : Memory} {j : Nat} {w : Word} {read : Nat → Byte}
    (hread : ∀ a v, Memory.lookup (Memory.writeWord m j w) a = some v → read a = v) :
    (read j).toNat = w.toNat % 256 ∧ (read (j + 1)).toNat = w.toNat / 256 % 256 ∧
      (read (j + 2)).toNat = w.toNat / 65536 % 256 ∧ (read (j + 3)).toNat = w.toNat / 16777216 := by
  have hw := w.isLt
  have h0 : read j = field w 0 8 := hread _ _ (by simp [Memory.lookup_writeWord])
  have h1 : read (j + 1) = field w 8 8 := hread _ _ (by simp [Memory.lookup_writeWord])
  have h2 : read (j + 2) = field w 16 8 := hread _ _ (by simp [Memory.lookup_writeWord])
  have h3 : read (j + 3) = field w 24 8 := hread _ _ (by simp [Memory.lookup_writeWord])
  simp only [h0, h1, h2, h3, field_toNat]
  omega

/-- Settles O51: the window's targets, and PIX read back after the write. -/
theorem pixWindowAccess : Obligations.PixWindowAccess := by
  intro s j d rest hj a
  have ha : a.toNat = 0x1000 + j := Nat.mod_eq_of_lt (by omega)
  have hbyte : target s.cfg a.toNat 1 = some (.pixByte j) := ha ▸ target_pixByte s.cfg hj
  have hword (h4 : j % 4 = 0) : target s.cfg a.toNat 4 = some (.pixWord j) := ha ▸ target_pixWord s.cfg hj h4
  refine ⟨fun h => ⟨_, BitVec.toNat_setWidth_of_le (by decide), step_read_of_target hbyte h⟩,
    fun h => ⟨_, step_write_of_target hbyte (by simp) h, rfl, ?_, fun i hne => ?_⟩,
    fun h4 h => ⟨_, toNat_readWord _ j, step_read_of_target (hword h4) h⟩,
    fun h4 h => ⟨_, step_write_of_target (hword h4) (by simp) h, rfl, ?_⟩⟩
  · rw [State.pixAt_of_lookup (Memory.lookup_write_self s.pix j (field d 0 8)), toNat_field_zero_eight]
  · exact State.pixAt_congr rfl (Memory.lookup_write_of_ne hne)
  · obtain ⟨h0, h1, h2, h3⟩ := toNat_bytes_of_writeWord (m := s.pix) (j := j) (w := d) fun _ _ hlookup =>
      State.pixAt_of_lookup (s := (s.takeEvent rest).writeTarget (.pixWord j) d) hlookup
    exact ⟨h0, h1, h2, h3, fun i hout => State.pixAt_congr rfl (Memory.lookup_writeWord_of_outside hout)⟩

/-- Settles O52: the window's targets, and BUF read back after the write. BUF_LEN plays no part. -/
theorem bufWindowAccess : Obligations.BufWindowAccess := by
  intro s j d rest hcfg hj a
  have ha : a.toNat = 0x80000000 + j := Nat.mod_eq_of_lt (by have := hcfg.2; omega)
  have hbyte : target s.cfg a.toNat 1 = some (.bufByte j) := ha ▸ target_bufByte s.cfg hj
  have hword (h4 : j % 4 = 0) (hin : j + 3 < s.cfg.bufSize) : target s.cfg a.toNat 4 = some (.bufWord j) :=
    ha ▸ target_bufWord s.cfg hin h4
  refine ⟨fun h => ⟨_, BitVec.toNat_setWidth_of_le (by decide), step_read_of_target hbyte h⟩,
    fun h => ⟨_, step_write_of_target hbyte (by simp) h, rfl, ?_, fun i hne => ?_⟩,
    fun h4 hin h => ⟨_, toNat_readWord _ j, step_read_of_target (hword h4 hin) h⟩,
    fun h4 hin h => ⟨_, step_write_of_target (hword h4 hin) (by simp) h, rfl, ?_⟩⟩
  · rw [State.bufAt_of_lookup (Memory.lookup_write_self s.buf j (field d 0 8)), toNat_field_zero_eight]
  · exact State.bufAt_congr rfl (Memory.lookup_write_of_ne hne)
  · obtain ⟨h0, h1, h2, h3⟩ := toNat_bytes_of_writeWord (m := s.buf) (j := j) (w := d) fun _ _ hlookup =>
      State.bufAt_of_lookup (s := (s.takeEvent rest).writeTarget (.bufWord j) d) hlookup
    exact ⟨h0, h1, h2, h3, fun i hout => State.bufAt_congr rfl (Memory.lookup_writeWord_of_outside hout)⟩

end Sys2Proof.Machine
end

section
/-! PROOFS. Encoding and decoding (30_encoding.md): the word of a command as a number, the decoder's answer for
each format, decode and encode as inverses, the opcode map, illegal words, and the assembler. -/

namespace Sys2Proof.Machine

open Sys2Proof

/-! ### The word of a command and the command of a word -/

/-- The fields of R60 as digits of the word. -/
theorem toNat_encode_config (nb : Nat) (no : PixelOrdering) (ns : Int) :
    (encode (.config nb no ns)).toNat =
      (BitVec.ofInt 16 ns).toNat * 65536 + no.bit.toNat * 256 + nb % 16 * 16 + 1 := by
  simp only [encode, toNat_append_eq_add, BitVec.toNat_ofNat]
  omega

/-- The fields of R61 as digits of the word. -/
theorem toNat_encode_decode (rows : Nat) : (encode (.decode rows)).toNat = rows % 16 * 16 + 2 := by
  simp only [encode, toNat_append_eq_add, BitVec.toNat_ofNat]
  omega

section Decoding

variable {w : Word}

/-- OPC = 1 with reserved bits 0 is a CONFIG (R60, R69). -/
theorem decode_eq_config (hop : (field w 0 4).toNat = 1) (hres : field w 9 7 = 0#7) :
    decode w = .ok (.config (field w 4 4).toNat (.ofBit (field w 8 1)) (field w 16 16).toInt) := by
  simp [decode, hop, hres]

/-- OPC = 2 with reserved bits 0 is a DECODE (R61, R69). -/
theorem decode_eq_decode (hop : (field w 0 4).toNat = 2) (hres : field w 8 24 = 0#24) :
    decode w = .ok (.decode (field w 4 4).toNat) := by
  simp [decode, hop, hres]

/-- The legal words, by opcode and reserved bits (R66). -/
theorem exists_decode_ok_iff : (∃ i, decode w = .ok i) ↔
    (w.toNat % 16 = 1 ∧ w.toNat / 512 % 128 = 0) ∨ (w.toNat % 16 = 2 ∧ w.toNat / 256 = 0) ∨
      w.toNat = 3 ∨ w.toNat = 4 := by
  have hlt := w.isLt
  constructor
  · rintro ⟨i, h⟩
    have hcases := decode_cases h
    simp only [field_eq_zero_iff, field_toNat] at hcases
    omega
  · rintro (⟨hop, hres⟩ | ⟨hop, hres⟩ | hw | hw)
    · exact ⟨_, decode_eq_config (by simpa [field_toNat] using hop) ((field_eq_zero_iff ..).2 hres)⟩
    · exact ⟨_, decode_eq_decode (by simpa [field_toNat] using hop) ((field_eq_zero_iff ..).2 (by omega))⟩
    · exact ⟨.encode, by rw [BitVec.eq_of_toNat_eq (y := 3#32) hw]; rfl⟩
    · exact ⟨.encz, by rw [BitVec.eq_of_toNat_eq (y := 4#32) hw]; rfl⟩

theorem exists_decode_error_iff : (∃ e, decode w = .error e) ↔ ¬ ∃ i, decode w = .ok i := by
  cases decode w <;> simp

end Decoding

/-- Settles O5: each field of the word, read back as a digit of its number, is the operand put there. -/
theorem decodeOfEncodeIsIdentity : Obligations.DecodeOfEncodeIsIdentity := by
  intro i hi
  cases i with
  | config nb no ns =>
    obtain ⟨hnb, hlo, hhi⟩ := wellFormed_config_iff.1 hi
    have hw := toNat_encode_config nb no ns
    have hbit := no.bit.isLt
    have hnb' : (field (encode (.config nb no ns)) 4 4).toNat = nb := by rw [field_toNat]; omega
    have hno : field (encode (.config nb no ns)) 8 1 = no.bit :=
      BitVec.eq_of_toNat_eq (by rw [field_toNat]; omega)
    have hns : field (encode (.config nb no ns)) 16 16 = BitVec.ofInt 16 ns :=
      BitVec.eq_of_toNat_eq (by have := (BitVec.ofInt 16 ns).isLt; rw [field_toNat]; omega)
    rw [decode_eq_config (by rw [field_toNat]; omega) (by rw [field_eq_zero_iff]; omega), hnb', hno, hns,
      PixelOrdering.ofBit_bit, BitVec.toInt_ofInt_eq_self (by decide) hlo (by omega)]
  | decode rows =>
    have hrows : rows ≤ 15 := of_decide_eq_true hi
    have hw := toNat_encode_decode rows
    have hrows' : (field (encode (.decode rows)) 4 4).toNat = rows := by rw [field_toNat]; omega
    rw [decode_eq_decode (by rw [field_toNat]; omega) (by rw [field_eq_zero_iff]; omega), hrows']
  | encode => rfl
  | encz => rfl

/-- A word is its fields put together again, once its reserved bits are 0 (R64, R69). -/
theorem encode_of_decode {w : Word} {i : Instr} (h : decode w = .ok i) : encode i = w := by
  have hlt := w.isLt
  apply BitVec.eq_of_toNat_eq
  rcases decode_cases h with ⟨hop, hres, rfl⟩ | ⟨hop, hres, rfl⟩ | ⟨hop, hres, rfl⟩ | ⟨hop, hres, rfl⟩ <;>
    rw [field_toNat] at hop <;> rw [field_eq_zero_iff] at hres
  · rw [toNat_encode_config, BitVec.ofInt_toInt, PixelOrdering.bit_ofBit]
    simp only [field_toNat]
    omega
  · rw [toNat_encode_decode, field_toNat]
    omega
  · simp only [encode, BitVec.toNat_ofNat]
    omega
  · simp only [encode, BitVec.toNat_ofNat]
    omega

/-- Settles O6: decoded operands fit their fields, and encoding puts the fields back in place. -/
theorem encodeOfDecodeIsIdentity : Obligations.EncodeOfDecodeIsIdentity :=
  fun _ _ h => ⟨decode_wellFormed h, encode_of_decode h⟩

/-! ### The opcode map -/

/-- A word selected by match and mask agrees with the match in every field the mask covers. -/
theorem field_eq_of_selected {w pattern mask : Word} {lo n : Nat} (h : w &&& mask = pattern)
    (hmask : field mask lo n = BitVec.allOnes n) : field w lo n = field pattern lo n := by
  rw [field] at hmask
  rw [← h, field, field, BitVec.extractLsb'_and, hmask, BitVec.and_allOnes]

/-- Two rows whose masks cover OPC and whose matches differ there select no word in common. -/
theorem not_selected_twice {w : Word} {p q : Word × Word} (hp : field p.2 0 4 = BitVec.allOnes 4)
    (hq : field q.2 0 4 = BitVec.allOnes 4) (hne : field p.1 0 4 ≠ field q.1 0 4) :
    ¬(w &&& p.2 = p.1 ∧ w &&& q.2 = q.1) :=
  fun ⟨hwp, hwq⟩ => hne ((field_eq_of_selected hwp hp).symm.trans (field_eq_of_selected hwq hq))

/-- A word that decodes is selected by its command's row (family `Opcode`). -/
theorem decode_selected {w : Word} {i : Instr} (h : decode w = .ok i) :
    w &&& (Laws.Opcode.row i).2 = (Laws.Opcode.row i).1 := by
  rw [← encode_of_decode h]
  cases i with
  | config nb no ns => exact Laws.Opcode.config nb no ns
  | decode rows => exact Laws.Opcode.decode rows
  | encode => exact Laws.Opcode.encode
  | encz => exact Laws.Opcode.encz

/-- Settles O2: a decoded word is selected by its row, the row's mask covers OPC and the reserved bits, and no
two rows have the same OPC. -/
theorem opcodeMapSelectsByMatchAndMask : Obligations.OpcodeMapSelectsByMatchAndMask := by
  have hfull (w : Word) : w &&& 0xFFFFFFFF#32 = w := BitVec.and_allOnes
  intro w
  refine ⟨⟨fun ⟨_, _, _, h⟩ => decode_selected h, fun h => ⟨_, _, _, decode_eq_config ?_ ?_⟩⟩,
    ⟨fun ⟨_, h⟩ => decode_selected h, fun h => ⟨_, decode_eq_decode ?_ ?_⟩⟩,
    ⟨decode_selected, fun h => ?_⟩, ⟨decode_selected, fun h => ?_⟩, ?_⟩
  · rw [field_eq_of_selected h (by decide)]; rfl
  · rw [field_eq_of_selected h (by decide)]; rfl
  · rw [field_eq_of_selected h (by decide)]; rfl
  · rw [field_eq_of_selected h (by decide)]; rfl
  · rw [(hfull w).symm.trans h]; rfl
  · rw [(hfull w).symm.trans h]; rfl
  · exact List.Pairwise.imp (fun ⟨hp, hq, hne⟩ => not_selected_twice hp hq hne) (by decide :
      List.Pairwise (fun p q : Word × Word => field p.2 0 4 = BitVec.allOnes 4 ∧
        field q.2 0 4 = BitVec.allOnes 4 ∧ field p.1 0 4 ≠ field q.1 0 4) _)

/-! ### Illegal words and operands -/

/-- Settles O3: the illegal words are those that do not decode, and a CMD write of one only raises. -/
theorem illegalWordFaultsInStatusOnly : Obligations.IllegalWordFaultsInStatusOnly := by
  refine ⟨fun w => ?_, ⟨.reservedOpcode, rfl⟩, fun w e s rest hd hs => ?_⟩
  · rw [exists_decode_error_iff, exists_decode_ok_iff]
    omega
  · rw [step_cmd hs, executeWord_error hd]
    rfl

/-- A one-bit field read as a pixelOrdering (R60). -/
theorem ofBit_field (w : Word) (lo : Nat) : PixelOrdering.ofBit (field w lo 1) =
    if w.toNat / 2 ^ lo % 2 = 1 then .reverseOrder else .inOrder := by
  simp only [PixelOrdering.ofBit, field_eq_zero_iff, pow_one]
  rcases Nat.mod_two_eq_zero_or_one (w.toNat / 2 ^ lo) with h | h <;> simp [h]

/-- Settles O4: the decoder's operands are fields, and a field is a quotient and remainder (`field_toNat`). -/
theorem operandsAreTheWordsFields : Obligations.OperandsAreTheWordsFields := by
  intro w
  have hlt := w.isLt
  refine ⟨fun hop hres => ?_, fun hop hres => ?_⟩
  · have hns : (field w 16 16).toInt =
        if w.toNat / 65536 < 32768 then (w.toNat / 65536 : Int) else (w.toNat / 65536 : Int) - 65536 := by
      rw [BitVec.toInt_eq_toNat_cond, field_toNat]
      omega
    rw [decode_eq_config (by rw [field_toNat]; omega) (by rw [field_eq_zero_iff]; omega), hns, ofBit_field,
      field_toNat]
    rfl
  · rw [decode_eq_decode (by rw [field_toNat]; omega) (by rw [field_eq_zero_iff]; omega), field_toNat]
    rfl

/-- Settles O1: each word is computed by the encoder, and decodes by O5. -/
theorem workedEncodings : Obligations.WorkedEncodings := by
  refine ⟨fun p hp => ?_, fun s => rfl⟩
  have ⟨hwf, henc⟩ : p.1.WellFormed ∧ encode p.1 = p.2 := by
    revert p
    decide
  exact ⟨hwf, henc, henc ▸ decodeOfEncodeIsIdentity p.1 hwf⟩

/-! ### The assembler -/

theorem assembleCommand_of_wellFormed {i : Instr} (hi : i.WellFormed) :
    assembleCommand i = some (.write 0x000#32 4 (encode i)) := if_pos hi

theorem assembleCommand_of_not_wellFormed {i : Instr} (hi : ¬ i.WellFormed) : assembleCommand i = none :=
  if_neg hi

/-- Settles O7: a line with a command assembles exactly when its operands fit; the others are one write. -/
theorem assemblerExpansions : Obligations.AssemblerExpansions := by
  have hok (i : Instr) (hi : i.WellFormed) :
      assembleLine (.command i) = some [.write 0x000#32 4 (encode i)] := by
    rw [assembleLine, assembleCommand_of_wellFormed hi]
    rfl
  have hrefuse (i : Instr) (hi : ¬ i.WellFormed) : assembleLine (.command i) = none := by
    rw [assembleLine, assembleCommand_of_not_wellFormed hi]
    rfl
  refine ⟨hok, hrefuse, hok (.decode 8) rfl, fun bits rows hrows => ?_, fun _ => rfl, fun _ => rfl,
    fun _ => rfl, rfl, fun no ns => hrefuse _ ?_, fun no => hrefuse _ ?_, hok (.config 3 .inOrder (-2)) rfl⟩
  · rw [assembleLine, assembleCommand_of_wellFormed (i := .decode rows) (decide_eq_true hrows)]
    rfl
  · rw [wellFormed_config_iff]
    omega
  · rw [wellFormed_config_iff]
    omega

end Sys2Proof.Machine
end

section
/-! PROOFS. The format (40_format.md): what CONFIG accepts and latches, the derived fields, the events that
change the format, and the ordering of pixels at 8 bits per pixel. -/

namespace Sys2Proof.Machine

open Sys2Proof

/-! ### CONFIG -/

section Config

variable {nb : Nat} {ns : Int}

theorem checkConfig_eq_none_iff :
    checkConfig nb ns = none ↔ (nb = 1 ∨ nb = 2 ∨ nb = 4 ∨ nb = 8) ∧ -1 ≤ ns := by
  simp [checkConfig_eq, legalFormat_iff]

/-- CONFIG of a legal candidate latches it (R73). -/
theorem exec_config_of_legal (h : (nb = 1 ∨ nb = 2 ∨ nb = 4 ∨ nb = 8) ∧ -1 ≤ ns) (no : PixelOrdering)
    (s : State) : exec (.config nb no ns) s = .next (s.latch (.candidate nb no ns)).complete :=
  command_of_none (checkConfig_eq_none_iff.2 h) fun _ ha => absurd ha List.not_mem_nil

/-- CONFIG of any other candidate faults (R74). -/
theorem exec_config_of_illegal (h : ¬((nb = 1 ∨ nb = 2 ∨ nb = 4 ∨ nb = 8) ∧ -1 ≤ ns)) (no : PixelOrdering)
    (s : State) : exec (.config nb no ns) s = .next (s.raise .invalidFormat) := by
  rw [← legalFormat_iff] at h
  rw [exec_config]
  exact command_of_some ((checkConfig_eq nb ns).trans (if_neg h))

/-- CONFIG completes and latches its candidate, or faults and leaves the format (R75). -/
theorem exec_config_fmt {no : PixelOrdering} {s t : State} (h : exec (.config nb no ns) s = .next t) :
    (t.err = 0#4 ∧ t.fmt = .candidate nb no ns) ∨ (t.err ≠ 0#4 ∧ t.fmt = s.fmt) := by
  rw [exec_config] at h
  rcases command_eq_next_iff.1 h with ⟨f, -, rfl⟩ | ⟨-, -, rfl⟩
  · exact .inr ⟨f.code_ne_zero, rfl⟩
  · exact .inl ⟨rfl, rfl⟩

end Config

/-- Settles O15, by the next state CONFIG leaves on a legal candidate. -/
theorem configLatchesTheFormat : Obligations.ConfigLatchesTheFormat :=
  fun _ no _ s hnb hlow _ => exec_config_of_legal ⟨hnb, hlow⟩ no s

/-- Settles O16: legal and other candidates by the two outcomes of CONFIG, encodable strides by the field's
bounds. -/
theorem configAcceptsExactlyLegalFormats : Obligations.ConfigAcceptsExactlyLegalFormats := by
  intro nb no ns s hnb
  refine ⟨?_, fun hlegal => ⟨_, exec_config_of_legal hlegal no s, rfl, rfl⟩,
    fun hillegal => exec_config_of_illegal hillegal no s, fun w hw => ?_⟩
  · interval_cases nb <;> decide
  · obtain ⟨-, -, hns⟩ := decode_config_bounds hw
    exact hns

/-! ### The derived fields -/

/-- GEOM while a format is latched is a function of BPP alone (R21, R76 to R80). -/
theorem Fmt.geomWord_of_valid {f : Fmt} (hv : f.valid = true) :
    f.geomWord = BitVec.ofNat 9 (2 ^ f.bppNat) ++ BitVec.ofNat 7 (f.bppNat * 8) ++
      BitVec.ofNat 8 ((1 <<< f.bppNat) - 1) ++ BitVec.ofNat 4 (8 / f.bppNat) ++ BitVec.ofNat 4 f.bppNat :=
  if_pos hv

/-- Settles O17: every derived field is a function of BPP alone, so a row of the table is a closed computation. -/
theorem derivedFieldsTable : Obligations.DerivedFieldsTable := by
  intro ord stride
  refine ⟨fun p hp => ?_, fun f hf => by rw [Fmt.geomWord, hf]; rfl⟩
  simp only [List.mem_cons, List.not_mem_nil, or_false] at hp
  rcases hp with rfl | rfl | rfl | rfl
  all_goals
    simp only [Fmt.geomWord_of_valid, Fmt.bpr, Fmt.ppb, Fmt.mask, Fmt.tileSize, Fmt.colors, Fmt.bppNat]
    decide

/-! ### What changes the format -/

/-- An executed word leaves the format, or is a CONFIG that completed and latched its candidate (R75). -/
theorem executeWord_fmt {w : Word} {s t : State} (h : executeWord w s = .next t) :
    t.fmt = s.fmt ∨ ∃ nb no ns, decode w = .ok (.config nb no ns) ∧ t.err = 0#4 ∧
      t.fmt = .candidate nb no ns := by
  rcases executeWord_cases h with ⟨i, hd, hx⟩ | rfl
  · cases i with
    | config nb no ns =>
      rcases exec_config_fmt hx with ⟨herr, hfmt⟩ | ⟨-, hfmt⟩
      · exact .inr ⟨nb, no, ns, hd, herr, hfmt⟩
      · exact .inl hfmt
    | decode | encode | encz =>
      obtain ⟨-, -, -, -, -, -, hfmt, -⟩ := commandsWriteOnlyTheirOwnState _ s t hx
      exact .inl (hfmt nofun)
  · exact .inl rfl

/-- FMT is read-only: no admitted write that executes nothing touches it (R20, R42). -/
@[simp] theorem State.writeTarget_fmt (s : State) (g : Target) (w : Word) :
    (s.writeTarget g w).fmt = s.fmt := by
  cases g with
  | reg r => cases r <;> rfl
  | _ => rfl

/-- What each event can do to the format: nothing, a completed CONFIG's latch, or a reset (R75). -/
theorem step_fmt {s t : State} {e : HostEvent} {rest : List HostEvent} (hs : s.host = e :: rest)
    (h : step s = .next t) :
    t.fmt = s.fmt ∨
    (∃ w nb no ns, e = .write 0x000#32 4 w ∧ decode w = .ok (.config nb no ns) ∧ t.err = 0#4 ∧
      t.fmt = .candidate nb no ns) ∨
    ((e = .reset ∨ ∃ w, e = .resetDuringCmd w) ∧ t.fmt = Fmt.reset) := by
  rcases step_cases h with ⟨hnil, -⟩ | ⟨e', rest', hs', hcase⟩
  · simp [hs] at hnil
  obtain ⟨rfl, rfl⟩ := List.cons.inj (hs.symm.trans hs')
  rcases hcase with ⟨a, n, -, rfl⟩ | ⟨w, u, rfl, hu, rfl⟩ | ⟨a, n, w, g, -, -, -, rfl⟩ |
    ⟨a, n, w, -, -, rfl⟩ | ⟨he, rfl⟩
  · obtain ⟨r, v, heq⟩ := hostRead_eq_respond a n (s.takeEvent rest)
    exact .inl (heq ▸ rfl)
  · rcases executeWord_fmt hu with hfmt | ⟨nb, no, ns, hd, herr, hfmt⟩
    · exact .inl hfmt
    · exact .inr (.inl ⟨w, nb, no, ns, rfl, hd, herr, hfmt⟩)
  · exact .inl ((s.takeEvent rest).writeTarget_fmt g w)
  · exact .inl rfl
  · exact .inr (.inr ⟨he, rfl⟩)

/-- A CMD write of a CONFIG completes and latches its candidate, or faults and leaves the format (R75). -/
theorem step_config_fmt {s t : State} {w : Word} {nb : Nat} {no : PixelOrdering} {ns : Int}
    {rest : List HostEvent} (hs : s.host = .write 0x000#32 4 w :: rest)
    (hd : decode w = .ok (.config nb no ns)) (h : step s = .next t) :
    (t.err = 0#4 ∧ t.fmt = .candidate nb no ns) ∨ (t.err ≠ 0#4 ∧ t.fmt = s.fmt) := by
  rw [step_cmd hs, executeWord_ok hd] at h
  obtain ⟨u, hu, rfl⟩ := onNext_eq_next_iff.1 h
  simpa using exec_config_fmt hu

/-- Settles O18: what any event does to the format (`step_fmt`), and a CONFIG's two outcomes
(`step_config_fmt`). -/
theorem formatChangesOnlyByConfigOrReset : Obligations.FormatChangesOnlyByConfigOrReset := by
  intro s t e rest hs h
  have hconfig : ∀ w nb no ns, e = .write 0x000#32 4 w → decode w = .ok (.config nb no ns) →
      (t.err = 0#4 → t.fmt = .candidate nb no ns) ∧ (t.err ≠ 0#4 → t.fmt = s.fmt) := by
    rintro w nb no ns rfl hd
    rcases step_config_fmt hs hd h with ⟨herr, hfmt⟩ | ⟨herr, hfmt⟩
    · exact ⟨fun _ => hfmt, absurd herr⟩
    · exact ⟨fun hok => absurd hok herr, fun _ => hfmt⟩
  rcases step_fmt hs h with hfmt | ⟨w, nb, no, ns, he, hd, herr, hfmt⟩ | ⟨he, hfmt⟩
  · refine ⟨absurd hfmt, hconfig, fun hv hv' => ?_, fun hv hv' => ?_⟩ <;> simp [hfmt, hv] at hv'
  · refine ⟨fun _ => .inl ⟨w, nb, no, ns, he, hd, herr, hfmt⟩, hconfig,
      fun _ _ => ⟨w, nb, no, ns, he, hd, herr⟩, fun _ hv' => ?_⟩
    simp [hfmt, Fmt.candidate] at hv'
  · refine ⟨fun _ => .inr he, hconfig, fun _ hv' => ?_, fun _ _ => he⟩
    simp [hfmt, Fmt.reset] at hv'

/-! ### The ordering at 8 bits per pixel -/

/-- The format with the other fields kept and another pixelOrdering. -/
def Fmt.withOrd (f : Fmt) (ord : PixelOrdering) : Fmt := { f with ord := ord }

/-- The state with the latched format's pixelOrdering replaced. -/
def State.withOrd (s : State) (ord : PixelOrdering) : State := { s with fmt := s.fmt.withOrd ord }

theorem State.withOrd_fmt (s : State) (ord : PixelOrdering) : (s.withOrd ord).fmt = s.fmt.withOrd ord := rfl

section EightBits

variable {f : Fmt} (h8 : f.bppNat = 8) (ord : PixelOrdering)
include h8

/-- A byte holds one pixel, so both orderings put walk position 0 into group 0 (R77, R89). -/
theorem Fmt.sub_withOrd {k : Nat} (hk : k < f.ppb) : (f.withOrd ord).sub k = f.sub k := by
  have hppb : f.ppb = 1 := by rw [Fmt.ppb, h8]
  obtain rfl : k = 0 := by omega
  have hzero {g : Fmt} (hg : g.ppb = 1) : g.sub 0 = 0 := by
    have := Fmt.sub_lt (f := g) (k := 0) (by omega)
    omega
  rw [hzero hppb, hzero (g := f.withOrd ord) hppb]

theorem Fmt.pack_withOrd (pix : Nat → Byte) (r b : Nat) : (f.withOrd ord).pack pix r b = f.pack pix r b :=
  forUp_congr fun _ _ hk => by rw [Fmt.sub_withOrd h8 ord hk]; rfl

theorem Fmt.packRows_withOrd (pix : Nat → Byte) (base : Nat) (buf : Memory) :
    (f.withOrd ord).packRows pix base buf = f.packRows pix base buf :=
  forUp_congr fun _ _ _ => forUp_congr fun _ _ _ => by rw [Fmt.pack_withOrd h8]; rfl

theorem Fmt.unpackRows_withOrd (read : Nat → Byte) (base rows : Nat) (pix : Memory) :
    (f.withOrd ord).unpackRows read base rows pix = f.unpackRows read base rows pix :=
  forUp_congr fun _ _ _ => forUp_congr fun _ _ _ => forUp_congr fun _ _ hk => by
    rw [Fmt.sub_withOrd h8 ord hk]; rfl

end EightBits

/-- The frame of a command does not read the ordering. -/
theorem command_withOrd {s t effect : State} {check : Option CmdFault} {accesses : List Nat}
    (h : command s check accesses effect = .next t) (ord : PixelOrdering) :
    command (s.withOrd ord) check accesses (effect.withOrd ord) = .next (t.withOrd ord) := by
  rcases command_eq_next_iff.1 h with ⟨f, hc, rfl⟩ | ⟨hc, hacc, rfl⟩
  · exact command_of_some hc
  · exact command_of_none hc hacc

/-- Settles O38: a command's checks and accesses do not read the ordering, and at 8 bits per pixel its loops
give the same memory under both (`Fmt.sub_withOrd`). -/
theorem eightBitPixelsIgnoreTheOrdering : Obligations.EightBitPixelsIgnoreTheOrdering := by
  intro s t ord i h8 hi h
  change exec i (s.withOrd ord) = .next (t.withOrd ord)
  rcases hi with rfl | rfl | ⟨rows, rfl⟩
  · rw [exec_encode, State.withOrd_fmt, Fmt.packRows_withOrd h8]
    exact command_withOrd h ord
  · rw [exec_encz, State.withOrd_fmt, Fmt.packRows_withOrd h8]
    exact command_withOrd h ord
  · rw [exec_decode, State.withOrd_fmt, Fmt.unpackRows_withOrd h8]
    exact command_withOrd h ord

end Sys2Proof.Machine
end

section
/-! PROOFS. Stride addressing, subwords, DECODE and the checks ENCODE and ENCZ share with it (41_decode.md): the
row pitch, the walk and the required length; pixels in and out of a byte; what a completed DECODE and a
completed ENCODE leave; their faults; and what DECODE and ENCZ do not read. -/

namespace Sys2Proof.Machine

open Sys2Proof

/-! ### Stride addressing -/

/-- A latched format has one of the four widths and a stride of -1 or more (R74). -/
theorem Fmt.legal_of_latched {f : Fmt} (hf : f.latched) :
    (f.bppNat = 1 ∨ f.bppNat = 2 ∨ f.bppNat = 4 ∨ f.bppNat = 8) ∧ -1 ≤ f.st :=
  legalFormat_iff.1 hf.2

/-- A row has 1 to 8 bytes (R76). -/
theorem Fmt.bpr_bounds {f : Fmt} (h : f.bppNat = 1 ∨ f.bppNat = 2 ∨ f.bppNat = 4 ∨ f.bppNat = 8) :
    1 ≤ f.bpr ∧ f.bpr ≤ 8 := by
  unfold Fmt.bpr
  omega

/-- No legal stride makes the pitch negative, so the natural number is the integer of R86 (log 9). -/
theorem Fmt.pitch_eq_bpr_add_strideBytes {f : Fmt} (hst : -1 ≤ f.st) :
    (f.pitch : Int) = f.bpr + f.strideBytes := by
  rw [Fmt.pitch_eq hst, Fmt.strideBytes]
  ring

theorem Fmt.addr_succ_row (f : Fmt) (base r b : Nat) : f.addr base (r + 1) b = f.addr base r b + f.pitch := by
  unfold Fmt.addr
  ring

/-- Settles O20: the three cases instantiate the pitch as an integer. -/
theorem rowPitchFollowsTheStride : Obligations.RowPitchFollowsTheStride := by
  intro f hf
  obtain ⟨-, hst⟩ := Fmt.legal_of_latched hf
  have hsum := Fmt.pitch_eq_bpr_add_strideBytes hst
  refine ⟨rfl, hsum, Fmt.pitch_eq hst, fun base r => f.addr_succ_row base r 0, fun h0 => ?_, fun _ => hsum,
    fun hneg => ⟨Fmt.pitch_eq_zero hneg, fun base r => ?_⟩⟩
  · rw [Fmt.strideBytes, h0] at hsum
    omega
  · simp [Fmt.addr, Fmt.pitch_eq_zero hneg]

/-- No walked address is above the last byte of the last row (R88). -/
theorem Fmt.addr_le_last (f : Fmt) (base : Nat) {rows r b : Nat} (hr : r < rows) (hb : b < f.bpr) :
    f.addr base r b ≤ base + (rows - 1) * f.pitch + f.bpr - 1 := by
  have hrow : r * f.pitch ≤ (rows - 1) * f.pitch := Nat.mul_le_mul_right _ (by omega)
  unfold Fmt.addr
  omega

/-- Settles O21: the walk is the set of the addresses (`Fmt.mem_walk`), and its last one is the largest. -/
theorem walkedAddresses : Obligations.WalkedAddresses := by
  intro f base hf
  obtain ⟨hpos, -⟩ := Fmt.bpr_bounds (Fmt.legal_of_latched hf).1
  refine ⟨fun r b => ⟨rfl, by unfold Fmt.addr; omega⟩,
    fun rows a hrows => ⟨Fmt.mem_walk, fun ha => ?_, Fmt.mem_walk.2 ⟨rows - 1, f.bpr - 1, ?_, ?_, ?_⟩⟩⟩
  · obtain ⟨r, b, hr, hb, rfl⟩ := Fmt.mem_walk.1 ha
    exact f.addr_le_last base hr hb
  · omega
  · omega
  · unfold Fmt.addr
    omega

/-! ### The required length -/

/-- The bytes from the first row's start to the last row's end, as an integer multiple of bpr (R91). -/
theorem Fmt.span_eq {f : Fmt} (hst : -1 ≤ f.st) {rows : Nat} (hrows : 1 ≤ rows) :
    (((rows - 1) * f.pitch + f.bpr : Nat) : Int) = f.bpr * (((rows : Int) - 1) * (f.st + 1) + 1) := by
  push_cast [hrows, Fmt.pitch_eq hst]
  ring

/-- When the tileSize term of the required length is the larger (R91, C6). -/
theorem Fmt.span_le_tileSize_iff {f : Fmt} (hpos : 1 ≤ f.bpr) (hst : -1 ≤ f.st) {rows : Nat}
    (hrows : 1 ≤ rows) :
    (rows - 1) * f.pitch + f.bpr ≤ f.tileSize ↔ ((rows : Int) - 1) * (f.st + 1) + 1 ≤ 8 := by
  rw [← Int.ofNat_le, Fmt.span_eq hst hrows, Fmt.tileSize]
  push_cast
  exact mul_le_mul_iff_right₀ (by omega)

/-- Settles O22: both terms of the required length are multiples of bpr, and bpr, rows and the stride are
bounded. -/
theorem requiredLength : Obligations.RequiredLength := by
  intro f offset rows hf hlow hhigh base
  obtain ⟨hbpp, hst⟩ := Fmt.legal_of_latched hf
  obtain ⟨hpos, hbpr⟩ := Fmt.bpr_bounds hbpp
  have hiff := Fmt.span_le_tileSize_iff hpos hst hlow
  have hbase : base < 2 ^ 29 := by have := offset.isLt; omega
  have hspan : (rows - 1) * f.pitch + f.bpr ≤ 7 * 32768 * 8 + 8 := by
    have hpitch : f.pitch ≤ 8 * 32768 := (f.pitch_lt hst).trans (Nat.mul_le_mul_right _ hbpr)
    have := Nat.mul_le_mul (show rows - 1 ≤ 7 by omega) hpitch
    omega
  have htile : f.tileSize = 8 * f.bpr := Nat.mul_comm _ _
  refine ⟨by rw [Fmt.required, htile], hiff, fun h0 => ?_, hbase, hspan, ?_⟩
  · have hfew : ((rows : Int) - 1) * (f.st + 1) ≤ 7 * 1 :=
      Int.mul_le_mul (by omega) (by omega) (by omega) (by omega)
    rw [Fmt.required, Nat.max_eq_left (hiff.2 (by omega))]
  · unfold Fmt.required
    omega

/-! ### Subwords -/

section Subwords

variable {f : Fmt} (h : f.bppNat = 1 ∨ f.bppNat = 2 ∨ f.bppNat = 4 ∨ f.bppNat = 8)
include h

/-- A bit group of a byte ends inside it (R90, R98). -/
theorem Fmt.shift_le {i : Nat} (hi : i < f.ppb) : f.bppNat * i ≤ 8 - f.bppNat := by
  have hle : f.bppNat * (i + 1) ≤ f.bpr * f.ppb := Nat.mul_le_mul_left _ hi
  rw [Fmt.bpr_mul_ppb h, Nat.mul_add] at hle
  omega

/-- The pixel at a bit group is a digit of the byte in base 2^bpp (R90). -/
theorem Fmt.toNat_extract_eq_div_mod (v : Byte) (i : Nat) :
    (f.extract v i).toNat = v.toNat / 2 ^ (f.bppNat * i) % 2 ^ f.bppNat := by
  rw [Fmt.toNat_extract h, Fmt.mask, Nat.one_shiftLeft, Nat.and_two_pow_sub_one_eq_mod,
    Nat.shiftRight_eq_div_pow]

theorem Fmt.toNat_extract_lt_colors (v : Byte) (i : Nat) : (f.extract v i).toNat < f.colors := by
  rw [Fmt.toNat_extract_eq_div_mod h]
  exact Nat.mod_lt _ (Nat.two_pow_pos _)

/-- The mask keeps the low bpp bits: masking is extracting from bit group 0 (R103). -/
theorem Fmt.toNat_and_mask (v : Byte) :
    (v &&& BitVec.ofNat 8 f.mask).toNat = v.toNat % 2 ^ f.bppNat := by
  simpa [Fmt.extract] using Fmt.toNat_extract_eq_div_mod h v 0

end Subwords

/-- sub(k) as the document tabulates it (R89). -/
theorem Fmt.sub_eq (f : Fmt) (k : Nat) : f.sub k = if f.ord = .inOrder then f.ppb - 1 - k else k := by
  unfold Fmt.sub
  cases f.ord <;> rfl

/-- Settles O23: the vector's value (`Fmt.toNat_extract`), and the group's place in the byte. -/
theorem extractedPixelIsItsBitGroup : Obligations.ExtractedPixelIsItsBitGroup := by
  intro f v i hf hi
  obtain ⟨hbpp, -⟩ := Fmt.legal_of_latched hf
  refine ⟨?_, Fmt.shift_le hbpp hi, Fmt.toNat_extract_lt_colors hbpp v i⟩
  rw [Fmt.toNat_extract hbpp, Fmt.mask, Nat.one_shiftLeft]

/-- Settles O24: extracting from the packed byte returns the masked pixel (`Fmt.extract_pack`), and extraction
reads a digit. -/
theorem packedByteHoldsEachPixel : Obligations.PackedByteHoldsEachPixel := by
  intro f pix r b k hf hk group
  obtain ⟨hbpp, -⟩ := Fmt.legal_of_latched hf
  have hgroup : group = f.sub k := (f.sub_eq k).symm
  rw [hgroup, ← Fmt.toNat_extract_eq_div_mod hbpp, Fmt.extract_pack hbpp pix r b hk,
    Fmt.toNat_and_mask hbpp]
  rfl

/-! ### DECODE completes -/

/-- DECODE's checks passed from a legal state: the pixels are unpacked (R94). -/
theorem State.Inv.exec_decode_of_check {s : State} (hi : s.Inv) {rows : Nat} (hc : checkDecode rows s = none) :
    Machine.exec (.decode rows) s =
      .next (s.setPixels (s.fmt.unpackRows s.bufAt s.base rows s.pix) (rows * 8)).complete :=
  command_of_none hc (hi.decode_accesses hc)

/-- A DECODE that completed passed its checks and unpacked the pixels (R94). -/
theorem exec_decode_completed {rows : Nat} {s t : State} (h : exec (.decode rows) s = .next t)
    (hok : t.err = 0#4) : checkDecode rows s = none ∧
      t = (s.setPixels (s.fmt.unpackRows s.bufAt s.base rows s.pix) (rows * 8)).complete := by
  rw [exec_decode] at h
  rcases command_eq_next_iff.1 h with ⟨f, -, rfl⟩ | ⟨hc, -, ht⟩
  · exact absurd hok f.code_ne_zero
  · exact ⟨hc, ht⟩

/-- Every entry after a DECODE that completed from a legal state (R95). -/
theorem State.Inv.pixAt_of_decode_completed {s t : State} {rows : Nat} (hi : s.Inv)
    (h : Machine.exec (.decode rows) s = .next t) (hok : t.err = 0#4) (j : Nat) :
    t.pixAt j = if j < rows * 8 then
        s.fmt.extract (s.bufAt (s.fmt.addr s.base (j / 8) (j % 8 / s.fmt.ppb))) (s.fmt.sub (j % 8 % s.fmt.ppb))
      else s.pixAt j := by
  obtain ⟨hc, rfl⟩ := exec_decode_completed h hok
  obtain ⟨hv, -⟩ := checkDecode_eq_none_iff.1 hc
  exact State.pixAt_unpack (Fmt.legal_of_valid hi.fmt hv).1 s s.bufAt s.base rows (rows * 8) j

/-- Settles O25: the checks pass, so the pixels are unpacked, and entry r*8 + b*ppb + k is that of row r, byte b
and walk position k (`Fmt.entry_eq`). -/
theorem decodeUnpacksRows : Obligations.DecodeUnpacksRows := by
  intro s rows hi hv hlow hhigh halign hlen
  obtain ⟨hbpp, -⟩ := Fmt.legal_of_valid hi.fmt hv
  have hc : checkDecode rows s = none :=
    checkDecode_eq_none_iff.2 ⟨hv, ⟨hlow, hhigh⟩, halign, s.base_eq ▸ hlen⟩
  have hrun := hi.exec_decode_of_check hc
  have hpix := hi.pixAt_of_decode_completed hrun rfl
  refine ⟨_, hrun, rfl, fun r b k hr hb hk => ?_, fun j hj => ?_, fun _ => rfl⟩
  · obtain ⟨hrow, hbyte, hpos⟩ := Fmt.entry_eq hbpp r hb hk
    have hcol := Fmt.column_lt hbpp hb hk
    rw [hpix, if_pos (by omega), hrow, hbyte, hpos, Fmt.addr, State.base_eq, Fmt.sub_eq]
  · rw [hpix, if_neg (by omega)]

/-- Settles O26: a written entry is an extracted pixel. -/
theorem decodedPixelsAreInRange : Obligations.DecodedPixelsAreInRange := by
  intro s t rows hi h hok
  obtain ⟨hv, -⟩ := checkDecode_eq_none_iff.1 (exec_decode_completed h hok).1
  obtain ⟨hbpp, -⟩ := Fmt.legal_of_valid hi.fmt hv
  refine ⟨fun j hj => ?_, fun k hk => Fmt.shift_le hbpp (Fmt.sub_lt hk)⟩
  rw [hi.pixAt_of_decode_completed h hok, if_pos hj]
  refine ⟨Fmt.toNat_extract_lt_colors hbpp _ _, fun n hn => ?_⟩
  rw [Fmt.getLsbD_extract hbpp, decide_eq_false (by omega), Bool.false_and]

/-- Settles O29: the pitch is 0, so every row is read at the same addresses. -/
theorem negativeStrideRepeatsRowZero : Obligations.NegativeStrideRepeatsRowZero := by
  intro s t rows r c hi hst h hok hr hc
  have hrow : (r * 8 + c) / 8 = r := by omega
  have hcol : (r * 8 + c) % 8 = c % 8 := by omega
  have haddr (q b : Nat) : s.fmt.addr s.base q b = s.base + b := by
    simp [Fmt.addr, Fmt.pitch_eq_zero hst]
  have hpix := hi.pixAt_of_decode_completed h hok
  rw [hpix, hpix, if_pos (by omega), if_pos (by omega), hrow, hcol, haddr, haddr]

/-! ### ENCODE completes -/

/-- Settles O31: the checks pass, so the tile is packed; a walked byte holds its own row's packing or row 7's
(`Fmt.lookup_packRows_of_nonneg`, `Fmt.lookup_packRows_of_neg`), and no other byte is written. -/
theorem encodePacksTheTile : Obligations.EncodePacksTheTile := by
  intro s hi hv halign hpix hlen
  rw [← State.base_eq] at hlen ⊢
  have hc : checkEncode s = none := checkEncode_eq_none_iff.2 ⟨hv, halign, hpix.ge, hlen⟩
  refine ⟨_, command_of_none hc (hi.encode_accesses hc), rfl, fun hst r b hr hb => ?_, fun hst b hb => ?_,
    fun a ha => ?_, fun _ => rfl⟩
  · exact State.bufAt_of_lookup (Fmt.lookup_packRows_of_nonneg hst s.pixAt s.base s.buf hr hb)
  · exact State.bufAt_of_lookup (Fmt.lookup_packRows_of_neg hst s.pixAt s.base s.buf hb)
  · have hout : a ∉ s.fmt.walk s.base 8 := fun hmem => by
      obtain ⟨r, b, hr, hb, heq⟩ := Fmt.mem_walk.1 hmem
      exact ha r b hr hb heq
    exact State.bufAt_congr rfl (Fmt.lookup_packRows_of_not_mem s.fmt s.pixAt s.base s.buf a hout)

/-! ### The faults of DECODE and ENCODE -/

/-- DECODE's causes with a format, in the order of R119. -/
theorem checkDecode_of_valid {s : State} (hv : s.fmt.valid = true) (rows : Nat) :
    checkDecode rows s =
      if rows < 1 ∨ 8 < rows then some .invalidRowCount
      else if s.offset.toNat % 8 ≠ 0 then some .unalignedOffset
      else if s.bufLen.toNat < s.fmt.required s.base rows then
        some (.bufferTooShort (s.fmt.required s.base rows) s.bufLen.toNat)
      else none := by
  simp only [checkDecode, firstFault_cons, firstFault_nil, hv, Bool.not_true, Bool.false_eq_true, if_false,
    decide_eq_true_eq, State.misaligned_iff]

/-- ENCODE's causes with a format, in the order of R119. -/
theorem checkEncode_of_valid {s : State} (hv : s.fmt.valid = true) :
    checkEncode s =
      if s.offset.toNat % 8 ≠ 0 then some .unalignedOffset
      else if s.pixLen.toNat < 64 then some (.invalidInput 64 s.pixLen.toNat)
      else if s.bufLen.toNat < s.fmt.required s.base 8 then
        some (.bufferTooShort (s.fmt.required s.base 8) s.bufLen.toNat)
      else none := by
  simp only [checkEncode, firstFault_cons, firstFault_nil, hv, Bool.not_true, Bool.false_eq_true, if_false,
    decide_eq_true_eq, State.misaligned_iff]

/-- BufferTooShort against the caller's buffer records BUF_LEN as it stands (R92, R117). -/
theorem State.raise_bufferTooShort_bufLen (s : State) (required : Nat) :
    s.raise (.bufferTooShort required s.bufLen.toNat) =
      { s with err := 2#4, sticky := true, errReq := BitVec.ofNat 32 required, errAvail := s.bufLen } := by
  simp [State.raise, CmdFault.code, CmdFault.lengths]

/-- InvalidInput records PIX_LEN, widened to a register (R104, R117). -/
theorem State.raise_invalidInput_pixLen (s : State) :
    s.raise (.invalidInput 64 s.pixLen.toNat) =
      { s with err := 3#4, sticky := true, errReq := 64#32, errAvail := s.pixLen.setWidth 32 } := by
  simp [State.raise, CmdFault.code, CmdFault.lengths]

/-- Settles O27: each fault is the first cause that applies (`checkDecode_of_valid`). -/
theorem decodeFaultPriority : Obligations.DecodeFaultPriority := by
  intro s rows hv
  have hcheck := checkDecode_of_valid hv rows
  refine ⟨fun hrows => ?_, fun hlow hhigh hmis => ?_, fun hlow hhigh halign hshort => ?_⟩
  · rw [if_pos (by omega)] at hcheck
    exact command_of_some hcheck
  · rw [if_neg (by omega), if_pos hmis] at hcheck
    exact command_of_some hcheck
  · rw [← State.base_eq] at hshort ⊢
    rw [if_neg (by omega), if_neg (not_not.2 halign), if_pos hshort] at hcheck
    rw [← State.raise_bufferTooShort_bufLen]
    exact command_of_some hcheck

/-- Settles O32: each fault is the first cause that applies (`checkEncode_of_valid`). -/
theorem encodeFaultPriority : Obligations.EncodeFaultPriority := by
  intro s hv
  have hcheck := checkEncode_of_valid hv
  refine ⟨fun hmis => ?_, fun halign hfew => ?_, fun halign hfull hshort => ?_⟩
  · rw [if_pos hmis] at hcheck
    exact command_of_some hcheck
  · rw [if_neg (not_not.2 halign), if_pos hfew] at hcheck
    rw [← State.raise_invalidInput_pixLen]
    exact command_of_some hcheck
  · rw [← State.base_eq] at hshort ⊢
    rw [if_neg (not_not.2 halign), if_neg (Nat.not_lt.2 hfull), if_pos hshort] at hcheck
    rw [← State.raise_bufferTooShort_bufLen]
    exact command_of_some hcheck

/-! ### What DECODE and ENCZ do not read -/

/-- The frame of a command does not read BUF. -/
theorem command_setBuf {s t effect : State} {check : Option CmdFault} {accesses : List Nat}
    (h : command s check accesses effect = .next t) (buf : Memory) :
    command (s.setBuf buf) check accesses (effect.setBuf buf) = .next (t.setBuf buf) := by
  rcases command_eq_next_iff.1 h with ⟨f, hc, rfl⟩ | ⟨hc, hacc, rfl⟩
  · exact command_of_some hc
  · exact command_of_none hc hacc

/-- Settles O28: the checks and accesses do not read BUF, and the loops read it only inside the walk
(`Fmt.unpackRows_congr`). -/
theorem decodeReadsOnlyWalkedBytes : Obligations.DecodeReadsOnlyWalkedBytes := by
  intro s t rows buf hagree h
  rw [← State.base_eq] at hagree
  change exec (.decode rows) (s.setBuf buf) = .next (t.setBuf buf)
  have hpix : s.fmt.unpackRows (s.setBuf buf).bufAt s.base rows s.pix =
      s.fmt.unpackRows s.bufAt s.base rows s.pix := Fmt.unpackRows_congr hagree
  rw [exec_decode, State.setBuf_fmt, State.setBuf_base, State.setBuf_pix, hpix]
  exact command_setBuf h buf

/-- Settles O36: ENCZ's checks, accesses and loops read neither register; a fault keeps BUF_LEN and a completed
ENCZ overwrites it. -/
theorem enczIgnoresOffsetAndBufLen : Obligations.EnczIgnoresOffsetAndBufLen := by
  intro s t offset bufLen h
  rw [exec_encz] at h ⊢
  rcases command_eq_next_iff.1 h with ⟨f, hc, rfl⟩ | ⟨hc, hacc, rfl⟩
  · rw [State.raise_err, if_neg f.code_ne_zero]
    exact command_of_some hc
  · exact command_of_none hc hacc

end Sys2Proof.Machine
end

section
/-! PROOFS. ENCODE and ENCZ (42_encode.md): ENCZ's faults and completion, the bits of a pixel an encoder uses, and
the round trips through ENCODE, ENCZ and DECODE. -/

namespace Sys2Proof.Machine

open Sys2Proof

/-! ### The faults of ENCZ -/

/-- ENCZ's causes with a format, in the order of R119. -/
theorem checkEncz_of_valid {s : State} (hv : s.fmt.valid = true) :
    checkEncz s =
      if s.pixLen.toNat < 64 then some (.invalidInput 64 s.pixLen.toNat)
      else if s.fmt.tileSize < s.fmt.required 0 8 then
        some (.bufferTooShort (s.fmt.required 0 8) s.fmt.tileSize)
      else none := by
  simp only [checkEncz, firstFault_cons, firstFault_nil, hv, Bool.not_true, Bool.false_eq_true, if_false,
    decide_eq_true_eq]

/-- Settles O35: too few pixels is the first cause that applies (`checkEncz_of_valid`). -/
theorem enczNeedsSixtyFourPixels : Obligations.EnczNeedsSixtyFourPixels := by
  intro s hv hfew
  have hcheck := checkEncz_of_valid hv
  rw [if_pos hfew] at hcheck
  rw [← State.raise_invalidInput_pixLen]
  exact command_of_some hcheck

/-- required(0, 8) as an integer multiple of bpr (R109). -/
theorem Fmt.required_zero_eight {f : Fmt} (hst : -1 ≤ f.st) :
    (f.required 0 8 : Int) = f.bpr * max 8 (7 * f.st + 8) := by
  have hspan := Fmt.span_eq hst (rows := 8) (by omega)
  rw [Fmt.required, Nat.zero_add, Nat.cast_max, hspan, Fmt.tileSize, Nat.cast_mul,
    mul_max_of_nonneg _ _ (Int.natCast_nonneg f.bpr)]
  congr 2
  push_cast
  ring

/-- With 64 pixels ENCZ's checks pass exactly for stride -1 and 0 (R109). -/
theorem State.Inv.checkEncz_eq_none_iff_st {s : State} (hi : s.Inv) (hv : s.fmt.valid = true)
    (hpix : s.pixLen.toNat = 64) : checkEncz s = none ↔ s.fmt.st = -1 ∨ s.fmt.st = 0 := by
  obtain ⟨hbpp, hst⟩ := Fmt.legal_of_valid hi.fmt hv
  rw [checkEncz_eq_none_iff, Fmt.required_le_tileSize_iff hbpp hst]
  simp only [hv, true_and]
  omega

/-- ENCZ's checks passed from a legal state: the tile is packed into a zeroed buffer (R108). -/
theorem State.Inv.exec_encz_of_check {s : State} (hi : s.Inv) (hc : checkEncz s = none) :
    Machine.exec .encz s = .next ((s.setBufLen s.fmt.tileSize).setBuf
      (s.fmt.packRows s.pixAt 0 (zeroFill s.fmt.tileSize s.buf))).complete :=
  command_of_none hc (hi.encz_accesses hc)

/-- An ENCZ that completed passed its checks (R117). -/
theorem checkEncz_of_completed {s t : State} (h : exec .encz s = .next t) (hok : t.err = 0#4) :
    checkEncz s = none := by
  rw [exec_encz] at h
  rcases command_eq_next_iff.1 h with ⟨f, -, rfl⟩ | ⟨hc, -, -⟩
  · exact absurd hok f.code_ne_zero
  · exact hc

/-- Settles O34: the required length exceeds tileSize exactly for st >= 1 (`Fmt.required_le_tileSize_iff`), and
with 64 pixels nothing else can fail. -/
theorem enczCompletesOnlyUpToStrideZero : Obligations.EnczCompletesOnlyUpToStrideZero := by
  intro s hi hv hpix
  obtain ⟨hbpp, hst⟩ := Fmt.legal_of_valid hi.fmt hv
  have hshort : s.fmt.tileSize < s.fmt.required 0 8 ↔ 1 ≤ s.fmt.st := by
    rw [← Nat.not_le, Fmt.required_le_tileSize_iff hbpp hst]
    omega
  have hreq := Fmt.required_zero_eight hst
  refine ⟨Nat.zero_add _, hreq, hshort, ?_, fun hpos => ?_⟩
  · rw [← hi.checkEncz_eq_none_iff_st hv hpix]
    exact ⟨fun ⟨t, ht, hok⟩ => checkEncz_of_completed ht hok,
      fun hc => ⟨_, hi.exec_encz_of_check hc, rfl⟩⟩
  · have hlen : s.fmt.required 0 8 = s.fmt.bpr * (7 * s.fmt.st.toNat + 8) := by
      have hst' : (s.fmt.st.toNat : Int) = s.fmt.st := Int.toNat_of_nonneg (by omega)
      rw [max_eq_right (by omega), ← hst'] at hreq
      exact_mod_cast hreq
    have hcheck := checkEncz_of_valid hv
    rw [if_neg (by omega), if_pos (hshort.2 hpos), hlen] at hcheck
    exact command_of_some hcheck

/-! ### ENCZ completes -/

/-- For st = 0 the rows follow one another: pitch = bpr (R86). -/
theorem Fmt.pitch_eq_bpr {f : Fmt} (hst : f.st = 0) : f.pitch = f.bpr := by
  have := Fmt.pitch_eq (f := f) (by omega)
  rw [hst] at this
  omega

/-- For st = -1 the rows coincide: the walk from byte 0 is the first bpr bytes (R106). -/
theorem Fmt.mem_walk_zero_of_neg {f : Fmt} (hst : f.st = -1) {a : Nat} : a ∈ f.walk 0 8 ↔ a < f.bpr := by
  have haddr (r b : Nat) : f.addr 0 r b = b := by simp [Fmt.addr, Fmt.pitch_eq_zero hst]
  rw [Fmt.mem_walk]
  constructor
  · rintro ⟨r, b, -, hb, rfl⟩
    rwa [haddr]
  · exact fun ha => ⟨0, a, by omega, ha, (haddr 0 a).symm⟩

/-- A byte the tile's rows do not reach is 0 inside BUF[0, n) and unchanged outside it (R108). -/
theorem Fmt.lookup_packRows_zeroFill_of_not_mem (f : Fmt) (pix : Nat → Byte) (n : Nat) (buf : Memory) {a : Nat}
    (ha : a ∉ f.walk 0 8) : Memory.lookup (f.packRows pix 0 (zeroFill n buf)) a =
      if a < n then some 0#8 else Memory.lookup buf a := by
  rw [Fmt.lookup_packRows_of_not_mem f pix 0 _ a ha, lookup_zeroFill]

/-- Settles O33: the checks pass, so the zeroed tile is packed; a walked byte holds its own row's packing or row
7's, and the others below tileSize keep the zero fill. -/
theorem enczPacksAFreshBuffer : Obligations.EnczPacksAFreshBuffer := by
  intro s hi hv hpix hst
  have hc : checkEncz s = none := (hi.checkEncz_eq_none_iff_st hv hpix).2 hst
  obtain ⟨-, -, hreq⟩ := checkEncz_eq_none_iff.1 hc
  have hout {a : Nat} := s.fmt.lookup_packRows_zeroFill_of_not_mem s.pixAt s.fmt.tileSize s.buf (a := a)
  refine ⟨_, hi.exec_encz_of_check hc, rfl, fun h0 r b hr hb => ?_, fun hneg => ⟨fun b hb => ?_,
    fun a hlow hhigh => ?_⟩, fun a ha => ?_, fun _ => rfl⟩
  · have hbyte := Fmt.lookup_packRows_of_nonneg h0.ge s.pixAt 0 (zeroFill s.fmt.tileSize s.buf) hr hb
    rw [Fmt.addr, Fmt.pitch_eq_bpr h0, Nat.zero_add] at hbyte
    exact State.bufAt_of_lookup hbyte
  · have hbyte := Fmt.lookup_packRows_of_neg hneg s.pixAt 0 (zeroFill s.fmt.tileSize s.buf) hb
    rw [Nat.zero_add] at hbyte
    exact State.bufAt_of_lookup hbyte
  · have hmem : a ∉ s.fmt.walk 0 8 := fun hmem => Nat.not_lt.2 hlow ((Fmt.mem_walk_zero_of_neg hneg).1 hmem)
    exact State.bufAt_of_lookup ((hout hmem).trans (if_pos hhigh))
  · have hmem : a ∉ s.fmt.walk 0 8 := fun hmem => Nat.not_lt.2 ha (Fmt.walk_lt hreq a hmem)
    exact State.bufAt_congr rfl ((hout hmem).trans (if_neg (Nat.not_lt.2 ha)))

/-! ### The bits of a pixel an encoder uses -/

/-- A format with a byte in its rows has one of the four widths: without a format bpr is 0 (R20, R76). -/
theorem Fmt.legal_bppNat_of_bpr_pos {f : Fmt} (hl : f.legal) (hpos : 0 < f.bpr) :
    f.bppNat = 1 ∨ f.bppNat = 2 ∨ f.bppNat = 4 ∨ f.bppNat = 8 := by
  cases hv : f.valid with
  | true => exact (Fmt.legal_of_valid hl hv).1
  | false =>
    have hreset : f = Fmt.reset := by simpa [Fmt.legal, hv] using hl
    subst hreset
    exact absurd hpos (by decide)

/-- ENCODE's loops depend only on the low bpp bits of the 64 pixels (R103, R110). -/
theorem Fmt.packRows_congr_mod {f : Fmt} (hl : f.legal) {p q : Nat → Byte}
    (hpq : ∀ j, j < 64 → (p j).toNat % f.colors = (q j).toNat % f.colors) (base : Nat) (buf : Memory) :
    f.packRows p base buf = f.packRows q base buf := by
  refine Fmt.packRows_congr fun r b hr hb => Fmt.pack_congr fun k hk => ?_
  have hbpp := Fmt.legal_bppNat_of_bpr_pos hl (Nat.zero_lt_of_lt hb)
  have hcol := Fmt.column_lt hbpp hb hk
  apply BitVec.eq_of_toNat_eq
  rw [Fmt.toNat_and_mask hbpp, Fmt.toNat_and_mask hbpp]
  exact hpq _ (by omega)

/-- The frame of a command does not read PIX. -/
theorem command_setPix {s t effect : State} {check : Option CmdFault} {accesses : List Nat}
    (h : command s check accesses effect = .next t) (pix : Memory) :
    command (s.setPix pix) check accesses (effect.setPix pix) = .next (t.setPix pix) := by
  rcases command_eq_next_iff.1 h with ⟨f, hc, rfl⟩ | ⟨hc, hacc, rfl⟩
  · exact command_of_some hc
  · exact command_of_none hc hacc

/-- Settles O37: the checks and accesses do not read PIX, and the loops read only the low bpp bits of its entries
(`Fmt.packRows_congr_mod`). -/
theorem encodersUseOnlyLowPixelBits : Obligations.EncodersUseOnlyLowPixelBits := by
  intro s t pix i hl hi hagree h
  have hpack := Fmt.packRows_congr_mod (p := (s.setPix pix).pixAt) hl hagree
  change exec i (s.setPix pix) = .next (t.setPix pix)
  rcases hi with rfl | rfl
  · rw [exec_encode, State.setPix_fmt, State.setPix_base, State.setPix_buf, hpack]
    exact command_setPix h pix
  · rw [exec_encz, State.setPix_fmt, State.setPix_buf, hpack]
    exact command_setPix h pix

/-! ### Pixels to bytes to pixels -/

/-- ENCODE's checks passed from a legal state: the tile is packed (R105). -/
theorem State.Inv.exec_encode_of_check {s : State} (hi : s.Inv) (hc : checkEncode s = none) :
    Machine.exec .encode s = .next (s.setBuf (s.fmt.packRows s.pixAt s.base s.buf)).complete :=
  command_of_none hc (hi.encode_accesses hc)

/-- Column c of a row is walk position c % ppb of byte c / ppb (R77, R95). -/
theorem Fmt.byte_lt_of_column {f : Fmt} (h : f.bppNat = 1 ∨ f.bppNat = 2 ∨ f.bppNat = 4 ∨ f.bppNat = 8)
    {c : Nat} (hc : c < 8) : c / f.ppb < f.bpr ∧ c % f.ppb < f.ppb := by
  have h8 := Fmt.bpr_mul_ppb h
  have hpos : 0 < f.ppb := Nat.pos_of_ne_zero fun h0 => by simp [h0] at h8
  exact ⟨(Nat.div_lt_iff_lt_mul hpos).2 (h8 ▸ hc), Nat.mod_lt _ hpos⟩

/-- A pixel in range keeps all its bits under the mask (R103, R111). -/
theorem Fmt.and_mask_of_lt_colors {f : Fmt}
    (h : f.bppNat = 1 ∨ f.bppNat = 2 ∨ f.bppNat = 4 ∨ f.bppNat = 8) {v : Byte} (hv : v.toNat < f.colors) :
    v &&& BitVec.ofNat 8 f.mask = v :=
  BitVec.eq_of_toNat_eq ((Fmt.toNat_and_mask h v).trans (Nat.mod_eq_of_lt hv))

/-- Unpacking column c from the packed bytes of row q gives that row's pixel, if it is in range (R103, R111). -/
theorem Fmt.extract_packed_column {f : Fmt}
    (h : f.bppNat = 1 ∨ f.bppNat = 2 ∨ f.bppNat = 4 ∨ f.bppNat = 8) (pix : Nat → Byte) (q : Nat) {c : Nat}
    (hc : c < 8) (hrange : (pix (q * 8 + c)).toNat < f.colors) :
    f.extract (f.pack pix q (c / f.ppb)) (f.sub (c % f.ppb)) = pix (q * 8 + c) := by
  rw [Fmt.extract_pack h pix q _ (Fmt.byte_lt_of_column h hc).2, Nat.add_assoc, Nat.div_add_mod',
    Fmt.and_mask_of_lt_colors h hrange]

/-- Every entry after ENCODE and a completed DECODE of 8 rows: its own pixel, or row 7's for st = -1 (R106, R111). -/
theorem State.Inv.pixAt_of_encode_decode {s t u : State} (hi : s.Inv) (hc : checkEncode s = none)
    (ht : Machine.exec .encode s = .next t) (hu : Machine.exec (.decode 8) t = .next u) (hok : u.err = 0#4)
    (hrange : ∀ j, j < 64 → (s.pixAt j).toNat < s.fmt.colors) {r c : Nat} (hr : r < 8) (hcol : c < 8) :
    u.pixAt (r * 8 + c) = s.pixAt ((if 0 ≤ s.fmt.st then r else 7) * 8 + c) := by
  obtain rfl := Host.Outcome.next.inj ((hi.exec_encode_of_check hc).symm.trans ht)
  obtain ⟨hv, -⟩ := checkEncode_eq_none_iff.1 hc
  obtain ⟨hbpp, hst⟩ := Fmt.legal_of_valid hi.fmt hv
  have hq : (if 0 ≤ s.fmt.st then r else 7) < 8 := by split <;> omega
  have hrow : (r * 8 + c) / 8 = r := by omega
  have hmod : (r * 8 + c) % 8 = c := by omega
  have hbyte := Fmt.lookup_packRows hst s.pixAt s.base s.buf hr (Fmt.byte_lt_of_column hbpp hcol).1
  rw [(hi.exec rfl ht).pixAt_of_decode_completed hu hok, if_pos (by omega), hrow, hmod]
  exact (congrArg (s.fmt.extract · _) (State.bufAt_of_lookup hbyte)).trans
    (Fmt.extract_packed_column hbpp s.pixAt _ hcol (hrange _ (by omega)))

/-- Settles O39: ENCODE changes nothing DECODE's checks read, and every entry comes back from the packed bytes
(`State.Inv.pixAt_of_encode_decode`). -/
theorem pixelsSurviveEncodeThenDecode : Obligations.PixelsSurviveEncodeThenDecode := by
  intro s hi hv halign hpix hlen hrange
  rw [← State.base_eq] at hlen
  have hc : checkEncode s = none := checkEncode_eq_none_iff.2 ⟨hv, halign, hpix.ge, hlen⟩
  have ht := hi.exec_encode_of_check hc
  have hcd : checkDecode 8 (s.setBuf (s.fmt.packRows s.pixAt s.base s.buf)).complete = none :=
    checkDecode_eq_none_iff.2 ⟨hv, by decide, halign, hlen⟩
  have hu := (hi.exec rfl ht).exec_decode_of_check hcd
  have hback {r c : Nat} := hi.pixAt_of_encode_decode hc ht hu rfl hrange (r := r) (c := c)
  refine ⟨_, _, ht, rfl, hu, rfl, rfl, fun hst j hj => ?_, fun hst r c hr hcol => ?_, fun hst => ?_⟩
  · have hj' := hback (r := j / 8) (c := j % 8) (by omega) (by omega)
    rwa [if_pos hst, Nat.div_add_mod'] at hj'
  · rw [hback hr hcol, if_neg (by omega)]
  · obtain ⟨-, -, -, -, hfault⟩ := enczCompletesOnlyUpToStrideZero s hi hv hpix
    exact ⟨_, hfault hst, rfl⟩

/-! ### Bytes to pixels to bytes -/

/-- For st = 0 the walk from byte 0 covers the tile: no byte lies between the rows (R86, R108). -/
theorem Fmt.mem_walk_zero_of_lt_tileSize {f : Fmt} (hst : f.st = 0) {a : Nat} (ha : a < f.tileSize) :
    a ∈ f.walk 0 8 := by
  rw [Fmt.tileSize, Nat.mul_comm] at ha
  have hpos : 0 < f.bpr := Nat.pos_of_ne_zero fun h0 => by simp [h0] at ha
  refine Fmt.mem_walk.2 ⟨a / f.bpr, a % f.bpr, (Nat.div_lt_iff_lt_mul hpos).2 ha, Nat.mod_lt a hpos, ?_⟩
  rw [Fmt.addr, Fmt.pitch_eq_bpr hst, Nat.zero_add, Nat.div_add_mod']

/-- If packing each row gives the bytes read at that row's addresses, ENCODE's loops leave what was read at every
walked address; for st = -1 row 7, which wins, has the addresses of every row (R106, R112). -/
theorem Fmt.lookup_packRows_of_pack_eq {f : Fmt} (hst : -1 ≤ f.st) {pix read : Nat → Byte} {base : Nat}
    (hpack : ∀ r b, r < 8 → b < f.bpr → f.pack pix r b = read (f.addr base r b)) (buf : Memory) {a : Nat}
    (ha : a ∈ f.walk base 8) : Memory.lookup (f.packRows pix base buf) a = some (read a) := by
  obtain ⟨r, b, hr, hb, rfl⟩ := Fmt.mem_walk.1 ha
  rw [Fmt.lookup_packRows hst pix base buf hr hb]
  split
  · rw [hpack r b hr hb]
  · rw [hpack 7 b (by omega) hb, Fmt.addr, Fmt.addr, Fmt.pitch_eq_zero (by omega), Nat.mul_zero, Nat.mul_zero]

section AfterDecode

variable {s t : State} (h : Machine.exec (.decode 8) s = .next t) (hok : t.err = 0#4)
include h hok

theorem exec_decode_completed_frame : t.fmt = s.fmt ∧ t.offset = s.offset ∧ t.bufAt = s.bufAt := by
  obtain ⟨-, rfl⟩ := exec_decode_completed h hok
  exact ⟨rfl, rfl, rfl⟩

/-- DECODE's checks for 8 rows cover ENCODE's, and it leaves PIX_LEN = 64 (R96, R112). -/
theorem checkEncode_after_decode : checkEncode t = none := by
  obtain ⟨hc, rfl⟩ := exec_decode_completed h hok
  obtain ⟨hv, -, halign, hlen⟩ := checkDecode_eq_none_iff.1 hc
  exact checkEncode_eq_none_iff.2 ⟨hv, halign, Nat.le_refl 64, hlen⟩

/-- Packing the decoded pixels of row r gives the row's bytes back (R112). -/
theorem State.Inv.pack_after_decode (hi : s.Inv) (r b : Nat) (hr : r < 8) (hb : b < t.fmt.bpr) :
    t.fmt.pack t.pixAt r b = t.bufAt (t.fmt.addr t.base r b) := by
  have hpix := hi.pixAt_of_decode_completed h hok
  obtain ⟨hc, rfl⟩ := exec_decode_completed h hok
  obtain ⟨hv, -⟩ := checkDecode_eq_none_iff.1 hc
  obtain ⟨hbpp, -⟩ := Fmt.legal_of_valid hi.fmt hv
  refine Fmt.pack_extract hbpp _ r b _ fun k hk => ?_
  obtain ⟨hrow, hbyte, hpos⟩ := Fmt.entry_eq hbpp r hb hk
  have hcol := Fmt.column_lt hbpp hb hk
  exact (hpix _).trans (by rw [if_pos (by omega), hrow, hbyte, hpos]; rfl)

end AfterDecode

section PackEqualsBuf

variable {t : State} (hi : t.Inv)
  (hpack : ∀ r b, r < 8 → b < t.fmt.bpr → t.fmt.pack t.pixAt r b = t.bufAt (t.fmt.addr t.base r b))
include hi hpack

/-- ENCODE of pixels that pack to the bytes of BUF leaves every byte (R107, R112). -/
theorem State.Inv.encode_keeps_buf (hc : checkEncode t = none) :
    ∃ u, Machine.exec .encode t = .next u ∧ u.err = 0#4 ∧ ∀ a, u.bufAt a = t.bufAt a := by
  obtain ⟨hv, -⟩ := checkEncode_eq_none_iff.1 hc
  have hst := (Fmt.legal_of_valid hi.fmt hv).2
  refine ⟨_, hi.exec_encode_of_check hc, rfl, fun a => ?_⟩
  by_cases ha : a ∈ t.fmt.walk t.base 8
  · exact State.bufAt_of_lookup (Fmt.lookup_packRows_of_pack_eq hst hpack _ ha)
  · exact State.bufAt_congr rfl (Fmt.lookup_packRows_of_not_mem t.fmt _ _ _ a ha)

/-- ENCZ of pixels that pack to the bytes of BUF from byte 0 leaves the walked bytes and zeroes the rest of the
tile (R108, R112). -/
theorem State.Inv.encz_keeps_walk (hc : checkEncz t = none) (hoff : t.offset = 0#32) :
    ∃ u, Machine.exec .encz t = .next u ∧ u.err = 0#4 ∧ (∀ a ∈ t.fmt.walk 0 8, u.bufAt a = t.bufAt a) ∧
      ∀ a, a ∉ t.fmt.walk 0 8 → a < t.fmt.tileSize → u.bufAt a = 0#8 := by
  obtain ⟨hv, -⟩ := checkEncz_eq_none_iff.1 hc
  have hst := (Fmt.legal_of_valid hi.fmt hv).2
  have hbase : t.base = 0 := by rw [State.base_eq, hoff]; rfl
  rw [hbase] at hpack
  refine ⟨_, hi.exec_encz_of_check hc, rfl, fun a ha => State.bufAt_of_lookup ?_,
    fun a ha hlt => State.bufAt_of_lookup ?_⟩
  · exact Fmt.lookup_packRows_of_pack_eq hst hpack _ ha
  · exact (t.fmt.lookup_packRows_zeroFill_of_not_mem _ _ _ ha).trans (if_pos hlt)

end PackEqualsBuf

/-- Settles O40: the decoded pixels pack to the bytes they came from (`State.Inv.pack_after_decode`), and for
OFFSET = 0 the walk is the whole tile for st = 0 and its first bpr bytes for st = -1. -/
theorem bytesSurviveDecodeThenEncode : Obligations.BytesSurviveDecodeThenEncode := by
  intro s t hs h hok
  have hi : t.Inv := hs.exec rfl h
  have hpack := hs.pack_after_decode h hok
  have hc := checkEncode_after_decode h hok
  obtain ⟨hv, -, hpix, -⟩ := checkEncode_eq_none_iff.1 hc
  have hcz := (hi.checkEncz_eq_none_iff_st hv (hi.pixLen.antisymm hpix)).2
  obtain ⟨hfmt, hoff, hbuf⟩ := exec_decode_completed_frame h hok
  rw [← hfmt, ← hoff, ← hbuf]
  refine ⟨hi.encode_keeps_buf hpack hc, fun h0 hzero => ?_, fun h0 hneg => ?_⟩
  · obtain ⟨u, hu, herr, hin, -⟩ := hi.encz_keeps_walk hpack (hcz (.inr hzero)) h0
    exact ⟨u, hu, herr, fun a ha => hin a (Fmt.mem_walk_zero_of_lt_tileSize hzero ha)⟩
  · obtain ⟨u, hu, herr, hin, hout⟩ := hi.encz_keeps_walk hpack (hcz (.inl hneg)) h0
    have hmem {a : Nat} := Fmt.mem_walk_zero_of_neg hneg (a := a)
    exact ⟨u, hu, herr, fun a ha => hin a (hmem.2 ha),
      fun a hlow hlt => hout a (fun ha => Nat.not_lt.2 hlow (hmem.1 ha)) hlt⟩

end Sys2Proof.Machine
end

section
/-! PROOFS. Exceptions (60_exceptions.md): what a fault leaves unchanged, the codes each command can report, and
the idle block. -/

namespace Sys2Proof.Machine

open Sys2Proof

/-! ### What a fault changes -/

/-- Only BufferTooShort (code 2) and InvalidInput (code 3) record lengths (R117, R118). -/
theorem CmdFault.lengths_eq_none {f : CmdFault} (h2 : f.code ≠ 2#4) (h3 : f.code ≠ 3#4) : f.lengths = none := by
  cases f with
  | bufferTooShort required avail => exact absurd rfl h2
  | invalidInput required avail => exact absurd rfl h3
  | invalidFormat | noFormat | unalignedOffset | invalidRowCount | illegalCommand => rfl

/-- A fault that records no lengths leaves ERR_REQ and ERR_AVAIL alone (R117). -/
theorem State.raise_lengths_of_none (s : State) {f : CmdFault} (h : f.lengths = none) :
    (s.raise f).errReq = s.errReq ∧ (s.raise f).errAvail = s.errAvail := by
  simp [State.raise, h]

/-- Settles O42: a command whose ERR is not 0 left the state of one of its faults (`exec_report`), and a fault
of another code than 2 and 3 records no lengths. -/
theorem faultChangesOnlyStatusFields : Obligations.FaultChangesOnlyStatusFields := by
  intro i s t h herr
  rcases exec_report h with ⟨f, rfl⟩ | ⟨hok, -⟩
  · exact ⟨rfl, fun h2 h3 => s.raise_lengths_of_none (CmdFault.lengths_eq_none h2 h3)⟩
  · exact absurd hok herr

/-! ### The codes of a command -/

/-- A command completes with code 0 or reports the code of one of the causes it checks (R117, R119). -/
theorem command_err_mem {s t effect : State} {causes : List (Bool × CmdFault)} {accesses : List Nat}
    {codes : List (BitVec 4)} (h : command s (firstFault causes) accesses effect = .next t)
    (hcodes : ∀ p ∈ causes, p.2.code ∈ codes) : t.err ∈ 0#4 :: codes := by
  rcases command_eq_next_iff.1 h with ⟨f, hf, rfl⟩ | ⟨-, -, rfl⟩
  · exact List.mem_cons_of_mem _ (hcodes _ (firstFault_mem hf))
  · exact List.mem_cons_self

/-- Settles O44: the causes each command checks, by their codes. -/
theorem commandsReportTheirOwnCodes : Obligations.CommandsReportTheirOwnCodes := by
  intro i s t h
  cases i with
  | config nb no ns =>
    rw [exec_config, checkConfig] at h
    exact command_err_mem h (by simp [CmdFault.code])
  | decode rows =>
    rw [exec_decode, checkDecode] at h
    exact command_err_mem h (by simp [CmdFault.code])
  | encode =>
    rw [exec_encode, checkEncode] at h
    exact command_err_mem h (by simp [CmdFault.code])
  | encz =>
    rw [exec_encz, checkEncz] at h
    exact command_err_mem h (by simp [CmdFault.code])

/-! ### The idle block -/

/-- Settles O9: a step performs the host's next event, and there is none. -/
theorem idleHostKeepsState : Obligations.IdleHostKeepsState := by
  intro s hidle
  unfold step
  rw [hidle]

end Sys2Proof.Machine
end

section
/-! PROOFS. Reset and hazards (70_reset_and_hazards.md): the state a reset leaves, the commands while there is no
format, and ENCODE after a partial DECODE. -/

namespace Sys2Proof.Machine

open Sys2Proof

/-! ### No format -/

/-- NoFormat is the first cause DECODE, ENCODE and ENCZ check, so whatever else is wrong is not reported (R119,
R137). -/
theorem command_of_no_format {s : State} (hv : s.fmt.valid = false) (others : List (Bool × CmdFault))
    (accesses : List Nat) (effect : State) :
    command s (firstFault ((!s.fmt.valid, .noFormat) :: others)) accesses effect = .next (s.raise .noFormat) :=
  command_of_some (by rw [hv]; rfl)

/-- A command other than CONFIG leaves the format (R75). -/
theorem exec_fmt_of_ne_config {i : Instr} {s t : State} (h : exec i s = .next t)
    (hi : ∀ nb no ns, i ≠ .config nb no ns) : t.fmt = s.fmt := by
  obtain ⟨-, -, -, -, -, -, hfmt, -⟩ := commandsWriteOnlyTheirOwnState i s t h
  exact hfmt hi

/-- Settles O19: NoFormat comes first (`command_of_no_format`), and the only command that can write the format is
CONFIG, which latches a valid one exactly when it completes (`exec_config_fmt`). -/
theorem noFormatUntilConfig : Obligations.NoFormatUntilConfig := by
  refine ⟨rfl, fun s hv => ⟨fun i t h => ⟨fun hvt => ?_, ?_⟩, fun rows => command_of_no_format hv _ _ _,
    command_of_no_format hv _ _ _, command_of_no_format hv _ _ _⟩⟩
  · by_cases hi : ∃ nb no ns, i = .config nb no ns
    · obtain ⟨nb, no, ns, rfl⟩ := hi
      rcases exec_config_fmt h with ⟨herr, -⟩ | ⟨-, hfmt⟩
      · exact ⟨herr, nb, no, ns, rfl⟩
      · simp [hfmt, hv] at hvt
    · have hfmt := exec_fmt_of_ne_config h fun nb no ns heq => hi ⟨nb, no, ns, heq⟩
      simp [hfmt, hv] at hvt
  · rintro ⟨hok, nb, no, ns, rfl⟩
    rcases exec_config_fmt h with ⟨-, hfmt⟩ | ⟨herr, -⟩
    · rw [hfmt]
      rfl
    · exact absurd hok herr

/-! ### ENCODE after a partial DECODE -/

/-- A DECODE that completed leaves PIX_LEN = rows * 8, with no wrap: rows is at most 8 (R93, R96). -/
theorem pixLen_of_decode_completed {s t : State} {rows : Nat} (h : exec (.decode rows) s = .next t)
    (hok : t.err = 0#4) : t.pixLen.toNat = rows * 8 := by
  obtain ⟨hc, rfl⟩ := exec_decode_completed h hok
  obtain ⟨-, ⟨-, hrows⟩, -⟩ := checkDecode_eq_none_iff.1 hc
  exact Nat.mod_eq_of_lt (by omega)

/-- Settles O30: the completed DECODE had a format and an aligned OFFSET, so PIX_LEN is the first thing wrong with
the ENCODE (`encodeFaultPriority`). -/
theorem partialDecodeBlocksEncode : Obligations.PartialDecodeBlocksEncode := by
  intro s t rows hi h hok hrows
  have hlen := pixLen_of_decode_completed h hok
  have hstale (j : Nat) (hj : rows * 8 ≤ j) : t.pixAt j = s.pixAt j := by
    rw [hi.pixAt_of_decode_completed h hok, if_neg (Nat.not_lt.2 hj)]
  have hfew : t.pixLen.toNat < 64 := by omega
  have havail : t.pixLen.setWidth 32 = BitVec.ofNat 32 (rows * 8) := by
    rw [← hlen, BitVec.ofNat_toNat]
  have ⟨hv, halign⟩ : t.fmt.valid = true ∧ t.offset.toNat % 8 = 0 := by
    obtain ⟨hc, rfl⟩ := exec_decode_completed h hok
    obtain ⟨hv, -, halign, -⟩ := checkDecode_eq_none_iff.1 hc
    exact ⟨hv, halign⟩
  obtain ⟨-, hfault, -⟩ := encodeFaultPriority t hv
  exact ⟨hstale, hlen, hfew, havail ▸ hfault halign hfew⟩

/-! ### Reset -/

/-- With no format GEOM reads 0; every other register but BUFSZ reads a field that reset zeroes (R19 to R26). -/
theorem State.readReg_reset {r : Reg} (hr : r ≠ .bufsz) : State.reset.readReg r = 0#32 := by
  cases r with
  | bufsz => exact absurd rfl hr
  | cmd | offset | bufLen | errReq | errAvail => rfl
  | status | fmt | geom | pixLen => decide

/-- Settles O10: the registers as read by `State.readReg_reset`, the fields by the definition of reset. -/
theorem resetRegistersAreZero : Obligations.ResetRegistersAreZero :=
  ⟨fun _ => State.readReg_reset, rfl, rfl, rfl, rfl, rfl, rfl, rfl, rfl, rfl, rfl, rfl⟩

/-- Both reset events leave what a reset leaves, with the event taken and no response (R135). -/
theorem step_reset {s : State} {e : HostEvent} {rest : List HostEvent} (hs : s.host = e :: rest)
    (he : e = .reset ∨ ∃ w, e = .resetDuringCmd w) : step s = .next (s.takeEvent rest).afterReset := by
  unfold step
  rw [hs]
  rcases he with rfl | ⟨w, rfl⟩ <;> rfl

/-- Nothing is written in PIX after a reset: each entry is a free value of the new draw (R136). -/
theorem State.afterReset_pixAt (s : State) (j : Nat) :
    s.afterReset.pixAt j = Config.pixAtReset (s.draw + 1) j := rfl

/-- Nothing is written in BUF after a reset: each byte is a free value of the new draw (R136). -/
theorem State.afterReset_bufAt (s : State) (a : Nat) :
    s.afterReset.bufAt a = Config.bufAtReset (s.draw + 1) a := rfl

/-- Settles O11: the state a reset event leaves (`step_reset`), and what its PIX and BUF read as. -/
theorem resetEventRestoresRegisters : Obligations.ResetEventRestoresRegisters :=
  fun s _ rest hs he => ⟨_, step_reset hs he, rfl, (s.takeEvent rest).afterReset_pixAt,
    (s.takeEvent rest).afterReset_bufAt⟩

/-- Settles O12: every bounded register is 0, there is no format, and nothing is written in PIX or BUF. -/
theorem resetStateIsLegal : Obligations.ResetStateIsLegal where
  cfg := by decide
  err := Nat.zero_le _
  fmt := rfl
  bufLen := Nat.zero_le _
  pixLen := Nat.zero_le _
  pix := Memory.wf_nil _
  buf := Memory.wf_nil _

end Sys2Proof.Machine
end
